-- ==== Sys2Proof/Word.lean ====
section
/-! DEFINITION. The one width of the core: a cell, an instruction word and an I/O value are each one byte (R7 `u8`, R50, R61). -/

namespace Sys2Proof

/-- `u8` of R7: a tape cell, or one value on an I/O channel; 8 bits, unsigned (R6 `CELL_W`). -/
abbrev Byte := BitVec 8

/-- One instruction word: 8 bits, the whole word the opcode (R6 `WORD_W`, R61). -/
abbrev Word := BitVec 8

end Sys2Proof
end

