-- ==== Sys2Proof/Config.lean ====
section
/-! DEFINITION. The OPEN parameters of R6: what a platform fixes and the spec does not. -/

namespace Sys2Proof

/-- The two capacities of R6, `none` meaning unbounded (the source's semantics; D6, D7). State carries them as plain
data that no step writes, so that a statement about every state is one about every capacity (assumption 3). -/
structure Capacities where
  /-- `PROG_CAP`: the longest sanitized program the instruction ROM holds. -/
  prog : Option Nat
  /-- `TAPE_CAP`: the largest tape extent `HI - LO + 1`. -/
  tape : Option Nat
deriving DecidableEq, Repr

namespace Config

/-- A free draw behind `EXIT_MALFORMED`: it has no body, so no proof can learn its value (assumption 4). -/
opaque exitMalformedDraw : Int

/-- `EXIT_MALFORMED` (R6, R126, U1): any non-zero value, and nothing more is known of it (assumption 4). -/
def exitMalformed : Int := if exitMalformedDraw = 0 then 1 else exitMalformedDraw

end Config

end Sys2Proof
end

