-- ==== Sys2Proof/Machine/State.lean ====
section
/-! DEFINITION. The state of the core (R18), what a step can stop with, and the state after reset (R37). -/

namespace Sys2Proof.Machine

/-- `PHASE` (R30), a 3-bit status register: five named values, and the three reserved codes, which nothing writes. -/
inductive Phase where
  | idle | run | halted | malformed | fault
  | reserved5 | reserved6 | reserved7
deriving DecidableEq, Repr

/-- `FAULT_REASON` (R32), a 2-bit status register. -/
inductive FaultReason where
  | none | illegalWord | progOverflow | tapeOverflow
deriving DecidableEq, Repr

/-- The host's answer to one input request (R108): `Byte(b)` or `EOF`. -/
inductive Answer where
  | byte (b : Byte)
  | eof
deriving DecidableEq, Repr

/-- One completed transaction on an I/O channel (R105): a value emitted by `.`, or the answer a `,` took. -/
inductive Event where
  | out (v : Byte)
  | input (a : Answer)
deriving DecidableEq, Repr

/-- Cells by a natural-number key: addresses strictly rising, no entry 0 (what an unlisted address reads as). -/
abbrev Memory := List Host.Cell

/-- `TAPE`, the logical map from `Int` to cells (R47), held as the two half-tapes of R33 joined at logical 0: `right`
keeps cell `i >= 0` under key `i`, `left` keeps cell `-(k + 1)` under key `k` (assumption 7). -/
structure Tape where
  right : Memory
  left : Memory
deriving DecidableEq, Repr

/-- The whole state: R18's table, then the model's own fields, which hold the ports of R35, the record of R17 and the
parameters of R6 (assumptions 3, 5 and 6). -/
structure State where
  /-- `IROM[0..N-1]`: the instruction words (R26). -/
  irom : List Word
  /-- `N`: the program length (R22). -/
  n : Nat
  /-- `JT`: an `Option` per index of the stream (R27). -/
  jt : List (Option Nat)
  /-- `IP`: the index of the next instruction (R21). -/
  ip : Nat
  /-- `DP`: the logical index of the current cell (R23). -/
  dp : Int
  /-- `LO`: the lower end of the extent (R24). -/
  lo : Int
  /-- `HI`: the upper end of the extent (R24). -/
  hi : Int
  /-- `TAPE`: the cells (R25). -/
  tape : Tape
  /-- `PHASE` (R30). -/
  phase : Phase
  /-- `FAULT_REASON` (R32). -/
  faultReason : FaultReason
  /-- The model's own: the capacities of R6, constant. -/
  cap : Capacities
  /-- The model's own: the host has raised `rst` (R35) and the core has not yet reset. -/
  rst : Bool
  /-- The model's own: the source the host presents on `load` (R35), not yet accepted. -/
  loadPort : Option (List Byte)
  /-- The model's own: the answers the host gives on `in_rsp` (R35), next one first; `[]` is a host that has not answered. -/
  answers : List Answer
  /-- The model's own: the transactions of the run so far, oldest first (R17). -/
  events : List Event
deriving DecidableEq, Repr

/-- Why a step stops without a next state. -/
inductive Fault where
  /-- Raised by a step taken in `PHASE = FAULT`: the model stops, as R128 asks, and the state before it shows the reason.
  Safe: it stops where the core does nothing until reset. -/
  | inFaultPhase (r : FaultReason)
  /-- Raised by a taken `[` or `]` with no jump-table entry (R45, D18). Safe: no loaded program reaches it. -/
  | absentJumpEntry
  /-- Raised by an access to a cell outside `LO..HI`, which has no storage (R9, R24). Safe: no run reaches it. -/
  | cellOutsideExtent
  /-- Raised by a fetch outside `0..N-1` (R9, R43). Safe: no run reaches it. -/
  | fetchOutsideProgram
deriving DecidableEq, Repr

/-- Why the model gives a step no meaning. -/
inductive Refusal where
  /-- An instruction without a meaning yet; no arm raises it. Safe. -/
  | notModelled (mnemonic : String)
  /-- Raised by a step from a state whose `PHASE` holds a reserved code (R30, U11). Safe: nothing writes one. -/
  | reservedPhase (p : Phase)
deriving DecidableEq, Repr

/-- What a step of the core answers. -/
abbrev Result := Host.Outcome State Fault Refusal

/-- The after-reset column of R37; the model's own fields empty, no capacity (assumptions 3, 5 and 6). -/
def State.reset : State where
  irom := []
  n := 0
  jt := []
  ip := 0
  dp := 0
  lo := 0
  hi := 0
  tape := { right := [], left := [] }
  phase := .idle
  faultReason := .none
  cap := { prog := none, tape := none }
  rst := false
  loadPort := none
  answers := []
  events := []

end Sys2Proof.Machine
end

