-- ==== Sys2Proof/Machine/Ops.lean ====
section
/-! DEFINITION. The named operations every instruction is written from: tape cells, the two ROMs, the event record, the
end of an instruction step, raising a fault, and reset. -/

namespace Sys2Proof.Machine

/-- The cell under key `a`; a cell nothing has written holds 0 (R25). -/
def Memory.read (a : Nat) : Memory → Byte
  | [] => 0#8
  | (k, b) :: rest => if a = k then b else Memory.read a rest

/-- No entry for `a`: the cell reads as 0. -/
def Memory.erase (a : Nat) (m : Memory) : Memory := m.filter (fun c => c.1 != a)

/-- The entry `(a, v)` at its place in the rising order. -/
def Memory.insert (a : Nat) (v : Byte) : Memory → Memory
  | [] => [(a, v)]
  | (k, b) :: rest =>
    if a < k then (a, v) :: (k, b) :: rest
    else if a = k then (a, v) :: rest
    else (k, b) :: Memory.insert a v rest

/-- Store `v` under key `a`, keeping the canonical form: 0 is held by no entry. -/
def Memory.write (a : Nat) (v : Byte) (m : Memory) : Memory :=
  if v = 0#8 then Memory.erase a m else Memory.insert a v m

/-- Keys strictly rising from `from` on, no entry 0. -/
def Memory.wfFrom : Nat → Memory → Bool
  | _, [] => true
  | lo, (k, b) :: rest => decide (lo ≤ k) && (b != 0#8) && Memory.wfFrom (k + 1) rest

/-- The canonical form: equal memories are equal lists. -/
def Memory.wf (m : Memory) : Bool := Memory.wfFrom 0 m

/-- The cell at logical index `i`. -/
def Tape.read (t : Tape) : Int → Byte
  | .ofNat k => Memory.read k t.right
  | .negSucc k => Memory.read k t.left

/-- `TAPE[i] <- v`. -/
def Tape.write (t : Tape) (i : Int) (v : Byte) : Tape :=
  match i with
  | .ofNat k => { t with right := Memory.write k v t.right }
  | .negSucc k => { t with left := Memory.write k v t.left }

/-- Both half-tapes in canonical form. -/
def Tape.wf (t : Tape) : Bool := Memory.wf t.right && Memory.wf t.left

/-- The tape "created with one zero cell" (R37). -/
def Tape.blank : Tape := { right := [], left := [] }

/-- Cell `i` has storage: `LO <= i <= HI` (R24). -/
def State.hasCell (s : State) (i : Int) : Bool := decide (s.lo ≤ i) && decide (i ≤ s.hi)

/-- `MemRead(i, 1)` (R9); no value outside the extent, where there is no cell. -/
def State.memRead (s : State) (i : Int) : Option Byte :=
  if s.hasCell i then some (s.tape.read i) else none

/-- `MemWrite(i, 1, v)` (R9) at an index that has storage. -/
def State.memWrite (s : State) (i : Int) (v : Byte) : State := { s with tape := s.tape.write i v }

/-- `IRead(i)` (R9): no word outside `0..N-1`. -/
def State.iread (s : State) (i : Nat) : Option Word := if i < s.n then s.irom[i]? else none

/-- `JRead(i)` (R9): the entry at `i`; none where the table records nothing (R27, R45). -/
def State.jread (s : State) (i : Nat) : Option Nat := (s.jt[i]?).join

/-- `OutWrite(v)` (R107): one value handed to the host within the step. -/
def State.outWrite (s : State) (v : Byte) : State := { s with events := s.events ++ [.out v] }

/-- `InRead()` (R108) once the host has answered `a`, `rest` being the answers it gives later: exactly one is taken. -/
def State.inTake (s : State) (a : Answer) (rest : List Answer) : State :=
  { s with answers := rest, events := s.events ++ [.input a] }

/-- The end of every instruction step that did not fault (R75): `IP <- next_ip`, and `PHASE <- HALTED` at `N` (R74). -/
def State.retire (s : State) (nextIp : Nat) : State :=
  { s with ip := nextIp, phase := if nextIp = s.n then .halted else s.phase }

/-- `raise Fault(reason)` (R128): `PHASE` and `FAULT_REASON`, and nothing else. `IP` stays at the faulting instruction.
There is no return from it: only reset leaves `FAULT` (R130). -/
def State.raise (s : State) (r : FaultReason) : State := { s with phase := .fault, faultReason := r }

/-- The reset step (R138): all state of the core takes its after-reset value, and the run's record goes with the run it
belongs to. The host's side stays as the host drives it, but for `rst`, an event now taken (assumption 5). -/
def State.resetCore (s : State) : State :=
  { State.reset with cap := s.cap, loadPort := s.loadPort, answers := s.answers }

end Sys2Proof.Machine
end

