-- ==== Sys2Proof/Machine/Operands.lean ====
section
/-! DEFINITION. The implicit operand of every instruction that has one: the current cell `CELL = TAPE[DP]` (R20, R63). -/

namespace Sys2Proof.Machine

/-- `CELL` (R20), the cell at `DP`. -/
def State.cell (s : State) : Byte := s.tape.read s.dp

/-- Read `CELL` and go on with it; the cell must have storage (R9, R24). -/
def withCell (s : State) (k : Byte → Result) : Result :=
  match s.memRead s.dp with
  | some v => k v
  | none => .fault .cellOutsideExtent

/-- `CELL <- v` at the end of the step, then `IP <- IP + 1`; the cell must have storage. -/
def storeCell (s : State) (v : Byte) : Result :=
  if s.hasCell s.dp then .next ((s.memWrite s.dp v).retire (s.ip + 1))
  else .fault .cellOutsideExtent

end Sys2Proof.Machine
end

