-- ==== Sys2Proof/Machine/Arith.lean ====
section
/-! DEFINITION. The 8-bit arithmetic unit (R93) and the cell instructions `+` and `-` (R96, R97). -/

namespace Sys2Proof.Machine

/-- The functions of the arithmetic unit (R93). -/
inductive AluFn where
  | inc | dec
deriving DecidableEq, Repr

/-- `alu(fn, a)` (R93): modulo 256, with no carry, borrow or overflow output (R95). -/
def alu (fn : AluFn) (a : Byte) : Byte :=
  match fn with
  | .inc => a + 1#8
  | .dec => a - 1#8

/-- `+` (R96). -/
def execInc (s : State) : Result := withCell s fun v => storeCell s (alu .inc v)

/-- `-` (R97). -/
def execDec (s : State) : Result := withCell s fun v => storeCell s (alu .dec v)

end Sys2Proof.Machine
end

