-- ==== Sys2Proof/Machine/Flags.lean ====
section
/-! DEFINITION. The core has no flags (R29); the one condition an instruction tests is the zero detector's output. -/

namespace Sys2Proof.Machine

/-- The zero detector (R94): `z = 1` exactly when the cell is 0; computed in the step that tests it, stored nowhere. -/
def zeroDetect (a : Byte) : Bool := a == 0#8

end Sys2Proof.Machine
end

