-- ==== Sys2Proof/Machine/Branch.lean ====
section
/-! DEFINITION. The jump multiplexer (R113) and the bracket instructions `[` (R114) and `]` (R115). -/

namespace Sys2Proof.Machine

/-- `next_ip(take)` (R113): one past the matching bracket, or one past this one. The table is read only when the jump is
taken; no value where it then holds no entry (R45; assumption 9). -/
def State.jumpMux (s : State) (take : Bool) : Option Nat :=
  if take then (s.jread s.ip).map (· + 1) else some (s.ip + 1)

/-- The end of a bracket's step: to the multiplexer's target, or the fault of R45 where the entry is absent. -/
def jump (s : State) (take : Bool) : Result :=
  match s.jumpMux take with
  | some target => .next (s.retire target)
  | none => .fault .absentJumpEntry

/-- `[` (R114): skip the loop when the cell is 0. -/
def execJz (s : State) : Result := withCell s fun v => jump s (zeroDetect v)

/-- `]` (R115): repeat the loop when the cell is not 0. -/
def execJnz (s : State) : Result := withCell s fun v => jump s (!zeroDetect v)

end Sys2Proof.Machine
end

