-- ==== Sys2Proof/Machine/InOut.lean ====
section
/-! DEFINITION. The I/O instructions `.` (R106) and `,` (R109). -/

namespace Sys2Proof.Machine

/-- `.` (R106): one value out, and output never blocks (R107). -/
def execOut (s : State) : Result :=
  withCell s fun v => .next ((s.outWrite v).retire (s.ip + 1))

/-- What an answer writes into the cell: end of input writes 0 (R109, R110). -/
def Answer.value : Answer → Byte
  | .byte b => b
  | .eof => 0#8

/-- `,` (R109). Until the host answers the core is blocked, with all its state as it is and `PHASE` still `RUN` (R108);
a step offered to it then changes nothing (assumption 1). -/
def execIn (s : State) : Result :=
  match s.answers with
  | [] => .next s
  | a :: rest => storeCell (s.inTake a rest) a.value

end Sys2Proof.Machine
end

