-- ==== Sys2Proof/Machine/Pointer.lean ====
section
/-! DEFINITION. The tape pointer state machine (R98) and the instructions `>` and `<` (R99, R100). -/

namespace Sys2Proof.Machine

/-- The two moves of R98. -/
inductive Move where
  | right | left
deriving DecidableEq, Repr

/-- The outputs of the tape pointer state machine (R36). -/
structure PointerOut where
  dp : Int
  lo : Int
  hi : Int
  grow : Bool
  overflow : Bool
deriving DecidableEq, Repr

/-- One more cell would make the extent exceed `TAPE_CAP` (R99, R100, R102). -/
def tapeFull (cap : Option Nat) (lo hi : Int) : Bool :=
  match cap with
  | none => false
  | some c => decide ((hi - lo + 1) + 1 > (c : Int))

/-- The transition table of R98 with the overflow of R102; an overflow keeps the three registers. -/
def pointerMachine (cap : Option Nat) (m : Move) (dp lo hi : Int) : PointerOut :=
  match m with
  | .right =>
    if dp + 1 > hi then
      if tapeFull cap lo hi then { dp, lo, hi, grow := false, overflow := true }
      else { dp := dp + 1, lo, hi := dp + 1, grow := true, overflow := false }
    else { dp := dp + 1, lo, hi, grow := false, overflow := false }
  | .left =>
    if dp - 1 < lo then
      if tapeFull cap lo hi then { dp, lo, hi, grow := false, overflow := true }
      else { dp := dp - 1, lo := dp - 1, hi, grow := true, overflow := false }
    else { dp := dp - 1, lo, hi, grow := false, overflow := false }

/-- Write the state machine's outputs; a cell that growth adds holds 0 (R101). -/
def State.setPointer (s : State) (p : PointerOut) : State :=
  { s with
    dp := p.dp, lo := p.lo, hi := p.hi
    tape := if p.grow then s.tape.write p.dp 0#8 else s.tape }

/-- A move of the data pointer: the overflow raises `TAPE_OVERFLOW` (R102), anything else completes. -/
def movePointer (m : Move) (s : State) : Result :=
  let p := pointerMachine s.cap.tape m s.dp s.lo s.hi
  if p.overflow then .next (s.raise .tapeOverflow)
  else .next ((s.setPointer p).retire (s.ip + 1))

/-- `>` (R99). -/
def execRight (s : State) : Result := movePointer .right s

/-- `<` (R100). -/
def execLeft (s : State) : Result := movePointer .left s

end Sys2Proof.Machine
end

