-- ==== Sys2Proof/Syntax.lean ====
section
/-! DEFINITION. The eight instructions (R64), one constructor per row of spec/opcode_table.json, in the table's order. None has an operand field (R63). -/

namespace Sys2Proof

/-- The opcode map of R64. -/
inductive Instr where
  | inc    -- `+` INC
  | dec    -- `-` DEC
  | right  -- `>` RIGHT
  | left   -- `<` LEFT
  | out    -- `.` OUT
  | inp    -- `,` IN
  | jz     -- `[` JZ
  | jnz    -- `]` JNZ
deriving DecidableEq, Repr

end Sys2Proof
end

