-- ==== Sys2Proof/Decode.lean ====
section
/-! DEFINITION. The instruction decoder (R65), then the encoder (R62), and the symbols of the source text (R70, R72). -/

namespace Sys2Proof

/-- What the decoder answers (R65): an operation, or `illegal = 1`. The 3-bit `op` beside `illegal = 1` is "any" in R65
and no rule reads it; the answer carries none (assumption 12). -/
inductive Decoded where
  | op (i : Instr)
  | illegal
deriving DecidableEq, Repr

/-- R65: `decode(w)`, total on the 256 words. The codes are ASCII (R62; assumption 10). -/
def decode (w : Word) : Decoded :=
  if w = 0x2B#8 then .op .inc
  else if w = 0x2D#8 then .op .dec
  else if w = 0x3E#8 then .op .right
  else if w = 0x3C#8 then .op .left
  else if w = 0x2E#8 then .op .out
  else if w = 0x2C#8 then .op .inp
  else if w = 0x5B#8 then .op .jz
  else if w = 0x5D#8 then .op .jnz
  else .illegal

/-- The instruction a decoder answer holds; none where `illegal = 1`. -/
def Decoded.instr? : Decoded → Option Instr
  | .op i => some i
  | .illegal => none

/-- The instruction of an opcode-table word. Every row is one 8-bit word (R61), so bits above the eighth do not exist. -/
def decodeTableWord (nbits w : Nat) : Option Instr :=
  (decode ((BitVec.ofNat nbits w).setWidth 8)).instr?

/-- The 3-bit internal `op` code of R64 and R65, which no rule depends on. -/
def opCode : Instr → BitVec 3
  | .inc => 0b000#3
  | .dec => 0b001#3
  | .right => 0b010#3
  | .left => 0b011#3
  | .out => 0b100#3
  | .inp => 0b101#3
  | .jz => 0b110#3
  | .jnz => 0b111#3

/-- R62: the word of each instruction, its symbol's character code. -/
def encode : Instr → Word
  | .inc => 0x2B#8
  | .dec => 0x2D#8
  | .right => 0x3E#8
  | .left => 0x3C#8
  | .out => 0x2E#8
  | .inp => 0x2C#8
  | .jz => 0x5B#8
  | .jnz => 0x5D#8

/-- The words of a program, one per instruction, in order (R42, R61). -/
def encodeProgram (p : List Instr) : List Word := p.map encode

/-- The instructions of a stream of words; none when a word of it is illegal (R66, R67). -/
def decodeProgram : List Word → Option (List Instr)
  | [] => some []
  | w :: ws =>
    match decode w, decodeProgram ws with
    | .op i, some p => some (i :: p)
    | .op _, none => none
    | .illegal, _ => none

/-- R70: the symbol of an instruction in the source text. -/
def symbol : Instr → Char
  | .inc => '+'
  | .dec => '-'
  | .right => '>'
  | .left => '<'
  | .out => '.'
  | .inp => ','
  | .jz => '['
  | .jnz => ']'

/-- R72: the disassembler; the word of a non-instruction has no symbol. -/
def disassemble (w : Word) : Option Char := (decode w).instr?.map symbol

end Sys2Proof
end

