-- ==== Sys2Proof/Machine/Load.lean ====
section
/-! DEFINITION. The load step (R89): the sanitizer (R80), the jump-table builder (R85) and what they write. -/

namespace Sys2Proof.Machine

/-- `ALPHA` (R80), in R80's order: `+ , - . < > [ ]`. -/
def alpha : List Byte := [0x2B#8, 0x2C#8, 0x2D#8, 0x2E#8, 0x3C#8, 0x3E#8, 0x5B#8, 0x5D#8]

/-- `sanitize(src)` (R80): the bytes of `ALPHA`, in order. It works on bytes (R82). -/
def sanitize (src : List Byte) : List Word := src.filter (fun b => alpha.contains b)

/-- The pairing of a `]` at `i` with the `[` at `j`, recorded both ways (R85). -/
def recordPair (jt : List (Option Nat)) (j i : Nat) : List (Option Nat) :=
  (jt.set j (some i)).set i (some j)

/-- The loop of R85 at index `i`, `stack` top first; none is MalformedProgram (R86, R87). -/
def buildFrom : List Word → Nat → List Nat → List (Option Nat) → Option (List (Option Nat))
  | [], _, stack, jt => if stack = [] then some jt else none
  | w :: ws, i, stack, jt =>
    if w = 0x5B#8 then buildFrom ws (i + 1) (i :: stack) jt
    else if w = 0x5D#8 then
      match stack with
      | [] => none
      | j :: stack' => buildFrom ws (i + 1) stack' (recordPair jt j i)
    else buildFrom ws (i + 1) stack jt

/-- `build_jt(s)` (R85): an entry per bracket, no entry elsewhere; none is MalformedProgram. The stack lives only here (R28). -/
def buildJumpTable (ws : List Word) : Option (List (Option Nat)) :=
  buildFrom ws 0 [] (List.replicate ws.length none)

/-- A sanitized length above a finite `PROG_CAP` (R84). -/
def overProgCap (cap : Option Nat) (len : Nat) : Bool :=
  match cap with
  | none => false
  | some c => decide (len > c)

/-- The state a successful load leaves (R89): the two ROMs filled, the initial state of R55, and `HALTED` when `N = 0`. -/
def State.loaded (s : State) (ws : List Word) (jt : List (Option Nat)) : State :=
  { s with
    irom := ws, n := ws.length, jt := jt
    ip := 0, dp := 0, lo := 0, hi := 0, tape := Tape.blank
    faultReason := .none
    phase := if ws.length = 0 then .halted else .run }

/-- MalformedProgram (R124): `PHASE <- MALFORMED`, and nothing else. -/
def State.malform (s : State) : State := { s with phase := .malformed }

/-- `load(src)` (R89); the capacity is checked before the builder runs (R125). -/
def State.load (s : State) (src : List Byte) : State :=
  if overProgCap s.cap.prog (sanitize src).length then s.raise .progOverflow
  else
    match buildJumpTable (sanitize src) with
    | none => s.malform
    | some jt => s.loaded (sanitize src) jt

/-- The load step at its port: the source presented is taken, once (R35; assumption 5). -/
def State.acceptLoad (s : State) (src : List Byte) : State := { s.load src with loadPort := none }

/-- `w` placed as the instruction at `IP`, in an instruction ROM that reaches as far (assumption 11). -/
def placeAt (irom : List Word) (ip : Nat) (w : Word) : List Word :=
  (irom.take ip ++ List.replicate (ip - irom.length) 0#8) ++ w :: irom.drop (ip + 1)

/-- `[` with no entry in the table at `IP`: it needs a partner before it can run. -/
def State.needsPartner (s : State) (w : Word) : Bool := decode w == .op .jz && (s.jread s.ip).isNone

/-- The state in which `w` is the next instruction of a running program: what a load would have stored for it, and the run
started. A `[` with no entry in the table gets the shortest loop there is, a `]` right after it (assumption 11). -/
def State.placeNext (s : State) (w : Word) : State :=
  let partner := s.needsPartner w
  let irom := placeAt s.irom s.ip w
  let n := max s.n (if partner then s.ip + 2 else s.ip + 1)
  let jt := s.jt ++ List.replicate (n - s.jt.length) none
  { s with
    irom := if partner then placeAt irom (s.ip + 1) (encode .jnz) else irom
    n := n
    jt := if partner then recordPair jt s.ip (s.ip + 1) else jt
    phase := .run
    rst := false }

end Sys2Proof.Machine
end

