-- ==== Sys2Proof/Machine/Cycle.lean ====
section
/-! DEFINITION. The step cycle: which of reset, load and instruction step is enabled (R16), and the instruction step itself (R75). -/

namespace Sys2Proof.Machine

/-- The instruction step (R75): fetch at `IP`, decode, execute; an illegal word raises `ILLEGAL_WORD` (R67). -/
def instructionStep (s : State) : Result :=
  match s.iread s.ip with
  | none => .fault .fetchOutsideProgram
  | some w =>
    match decode w with
    | .illegal => .next (s.raise .illegalWord)
    | .op i => exec i s

/-- The step enabled in a state (R16). Reset goes before all else (R132); a load needs `IDLE` and a source (R89); an
instruction step needs `RUN` (R75). In `IDLE` without a source, in `HALTED` and in `MALFORMED` the core does nothing
(R137; assumption 1); from `FAULT` the model stops (R128; assumption 2); a reserved `PHASE` has no meaning (U11). -/
def cycle (s : State) : Result :=
  if s.rst then .next s.resetCore
  else
    match s.phase with
    | .idle =>
      match s.loadPort with
      | some src => .next (s.acceptLoad src)
      | none => .next s
    | .run => instructionStep s
    | .halted => .next s
    | .malformed => .next s
    | .fault => .fault (.inFaultPhase s.faultReason)
    | .reserved5 => .refused (.reservedPhase .reserved5)
    | .reserved6 => .refused (.reservedPhase .reserved6)
    | .reserved7 => .refused (.reservedPhase .reserved7)

end Sys2Proof.Machine
end

