-- ==== Sys2Proof/Machine/Step.lean ====
section
/-! DEFINITION. One step of the core, and the state in which a given word is the next instruction. -/

namespace Sys2Proof.Machine

/-- One step of the core: reset, load or instruction (R16). -/
def step (s : State) : Host.Outcome State Fault Refusal := cycle s

/-- `s` with the instruction word `w` where the next step fetches, and a run in progress (assumption 11). -/
def State.withFetchWord (s : State) (nbits w : Nat) : State :=
  s.placeNext ((BitVec.ofNat nbits w).setWidth 8)

end Sys2Proof.Machine
end

