-- ==== Sys2Proof/Machine/Ports.lean ====
section
/-! DEFINITION. The core as its host sees it: the ports of R35, the exit status (R126), the result of a run (R141), and what
the host can do between two steps. None of it changes what a step does. -/

namespace Sys2Proof.Machine

/-- The 3 bits of `PHASE` (R30). -/
def Phase.code : Phase → BitVec 3
  | .idle => 0b000#3
  | .run => 0b001#3
  | .halted => 0b010#3
  | .malformed => 0b011#3
  | .fault => 0b100#3
  | .reserved5 => 0b101#3
  | .reserved6 => 0b110#3
  | .reserved7 => 0b111#3

/-- The 2 bits of `FAULT_REASON` (R32). -/
def FaultReason.code : FaultReason → BitVec 2
  | .none => 0b00#2
  | .illegalWord => 0b01#2
  | .progOverflow => 0b10#2
  | .tapeOverflow => 0b11#2

/-- The `status` port (R35): read-only to the host, at any time. -/
def State.status (s : State) : BitVec 3 × BitVec 2 := (s.phase.code, s.faultReason.code)

/-- The `in_req` port (R35, R108): a running core whose next instruction is `,`, and no reset raised (R132). DESIGN CHOICE
(assumption 21): the spec gives no signal timing, and here the request stays raised until the step that takes the answer,
so also between the host's answer and that step. -/
def State.inReq (s : State) : Bool :=
  s.phase == .run && !s.rst && (s.iread s.ip).map decode == some (.op .inp)

/-- Blocked (R108, R121): the request is raised and the host has not answered. -/
def State.blocked (s : State) : Bool := s.inReq && s.answers.isEmpty

/-- The exit status (R126): 0, `EXIT_MALFORMED`, or none. -/
def State.exitStatus (s : State) : Option Int :=
  match s.phase with
  | .halted => some 0
  | .malformed => some Config.exitMalformed
  | .idle | .run | .fault | .reserved5 | .reserved6 | .reserved7 => none

/-- The value of an output event. -/
def Event.outValue : Event → Option Byte
  | .out v => some v
  | .input _ => none

/-- The answer of an input event. -/
def Event.answer : Event → Option Answer
  | .out _ => none
  | .input a => some a

/-- The output of the run: the values written, in step order (R107). -/
def State.output (s : State) : List Byte := s.events.filterMap Event.outValue

/-- The answers taken on `in_rsp`, in step order (R141). -/
def State.answersTaken (s : State) : List Answer := s.events.filterMap Event.answer

/-- How many cells have storage, `HI - LO + 1` (R24). -/
def State.extent (s : State) : Int := s.hi - s.lo + 1

/-- `TAPE[LO..HI]`, from `LO` up. -/
def State.cells (s : State) : List Byte :=
  (List.range s.extent.toNat).map fun (k : Nat) => s.tape.read (s.lo + (k : Int))

/-- The offset of R33, from the physical start to logical position 0; hidden, and no instruction reads it. -/
def State.offset (s : State) : Int := -s.lo

/-- The physical index of logical cell `i` in the offset form (R33). -/
def State.physicalIndex (s : State) (i : Int) : Int := i - s.lo

/-- What a halted run leaves behind (R141). -/
structure FinalTape where
  ip : Nat
  dp : Int
  lo : Int
  hi : Int
  cells : List Byte
deriving DecidableEq, Repr

/-- The result of an ended run (R141). -/
structure RunResult where
  exitStatus : Int
  output : List Byte
  answersTaken : List Answer
  final : Option FinalTape
deriving DecidableEq, Repr

/-- The result of the run, once it has ended: in `HALTED` or `MALFORMED`, and in no other phase (R141). -/
def State.result? (s : State) : Option RunResult :=
  match s.phase with
  | .halted =>
    some { exitStatus := 0, output := s.output, answersTaken := s.answersTaken
           final := some { ip := s.ip, dp := s.dp, lo := s.lo, hi := s.hi, cells := s.cells } }
  | .malformed =>
    some { exitStatus := Config.exitMalformed, output := s.output, answersTaken := s.answersTaken, final := none }
  | .idle | .run | .fault | .reserved5 | .reserved6 | .reserved7 => none

/-- What the host can do between two steps (R35, R112): raise `rst`, present a source on `load`, give one more answer. It
accepts every output within the step (R107), and reads `status` as it likes. -/
inductive HostMove where
  | raiseRst
  | present (src : List Byte)
  | answer (a : Answer)
deriving DecidableEq, Repr

/-- The state after a move of the host: only its side of the ports changes. DESIGN CHOICE (assumption 20): the spec is
silent on a second source presented before the first is accepted, and here the later one replaces the earlier, which is
then never loaded. An answer joins the end of the answers to come, before its request or after it (assumption 21). -/
def State.hostMove (s : State) : HostMove → State
  | .raiseRst => { s with rst := true }
  | .present src => { s with loadPort := some src }
  | .answer a => { s with answers := s.answers ++ [a] }

end Sys2Proof.Machine
end

