-- ==== Sys2Proof/Safety.lean ====
section
/-! DEFINITION. The terms claims are stated in: what a loaded program is, the invariant of R38 and its companions, the
states a core and its host can reach, and what a frame leaves unchanged. -/

namespace Sys2Proof.Machine

/-- The entry of a jump table at `i` (R27). -/
def entry (jt : List (Option Nat)) (i : Nat) : Option Nat := (jt[i]?).join

/-- `(o, c)` is a matched pair of the stream `ws` under the table `jt` (R46, R88). -/
structure MatchedPair (ws : List Word) (jt : List (Option Nat)) (o c : Nat) : Prop where
  before : o < c
  opens : ws[o]? = some 0x5B#8
  closes : ws[c]? = some 0x5D#8
  forth : entry jt o = some c
  back : entry jt c = some o

/-- `jt` is the bracket pairing of `ws` (R46, R88): an `Option` per index, every bracket in a matched pair, and no entry at
any other index. -/
structure Pairing (ws : List Word) (jt : List (Option Nat)) : Prop where
  length_eq : jt.length = ws.length
  opened : ∀ o : Nat, ws[o]? = some 0x5B#8 → ∃ c, MatchedPair ws jt o c
  closed : ∀ c : Nat, ws[c]? = some 0x5D#8 → ∃ o, MatchedPair ws jt o c
  absent : ∀ i w, ws[i]? = some w → w ≠ 0x5B#8 → w ≠ 0x5D#8 → entry jt i = none

/-- How many of the words `ws[o..c]` are `w` (R92). -/
def countIn (w : Word) (ws : List Word) (o c : Nat) : Nat := ((ws.drop o).take (c + 1 - o)).count w

/-- The tape state machine's invariant: R24's bounds, cells in canonical form, none but 0 outside the extent, and the
capacity respected (R102; a tape is created with one cell, whatever the capacity). -/
structure State.TapeInv (s : State) : Prop where
  canonical : s.tape.wf = true
  home : s.lo ≤ 0 ∧ 0 ≤ s.hi
  pointer : s.lo ≤ s.dp ∧ s.dp ≤ s.hi
  storage : ∀ i : Int, s.tape.read i ≠ 0#8 → s.lo ≤ i ∧ i ≤ s.hi
  capacity : ∀ c : Nat, s.cap.tape = some c → s.extent ≤ max (c : Int) 1

/-- The program's invariant: R38's clauses about `IROM`, `N`, `JT` and `IP`. -/
structure State.ProgramInv (s : State) : Prop where
  length_eq : s.n = s.irom.length
  legal : ∀ w ∈ s.irom, decode w ≠ .illegal
  pairing : Pairing s.irom s.jt
  capacity : ∀ c : Nat, s.cap.prog = some c → s.n ≤ c
  ip_le : s.ip ≤ s.n

/-- The status registers' invariant: no reserved `PHASE` (R30), a reason exactly in `FAULT` (R32), `RUN` only short of `N`
and `HALTED` only at it (R74), and nothing loaded in `IDLE` and `MALFORMED` (R37, R124). -/
structure State.StatusInv (s : State) : Prop where
  named : s.phase ≠ .reserved5 ∧ s.phase ≠ .reserved6 ∧ s.phase ≠ .reserved7
  reason : s.faultReason = .none ↔ s.phase ≠ .fault
  running : s.phase = .run → s.ip < s.n
  halted : s.phase = .halted → s.ip = s.n
  unloaded : s.phase = .idle ∨ s.phase = .malformed → s.irom = [] ∧ s.n = 0 ∧ s.jt = []
    ∧ s.ip = 0 ∧ s.dp = 0 ∧ s.lo = 0 ∧ s.hi = 0 ∧ s.tape = Tape.blank ∧ s.events = []

/-- What holds at every step boundary. -/
structure State.Inv (s : State) : Prop where
  ontape : s.TapeInv
  program : s.ProgramInv
  status : s.StatusInv

/-- The states a core and its host reach from reset, for every pair of capacities and every behaviour of the host. -/
inductive Reachable : State → Prop
  | reset (cap : Capacities) : Reachable { State.reset with cap := cap }
  | step {s t : State} : Reachable s → step s = .next t → Reachable t
  | host {s : State} (m : HostMove) : Reachable s → Reachable (s.hostMove m)

/-- The next step of the core is an instruction step (R16, R75, R132). -/
def State.stepping (s : State) : Prop := s.phase = .run ∧ s.rst = false

/-- The next step of the core runs the instruction `i`. -/
def State.nextIs (s : State) (i : Instr) : Prop := s.stepping ∧ (s.iread s.ip).map decode = some (.op i)

/-- `i` is a move that would grow the tape beyond a finite `TAPE_CAP` (R102). -/
def State.growsBeyondCap (s : State) (i : Instr) : Prop :=
  (∃ c : Nat, s.cap.tape = some c ∧ (c : Int) < s.extent + 1)
    ∧ ((i = .right ∧ s.hi < s.dp + 1) ∨ (i = .left ∧ s.dp - 1 < s.lo))

/-- The instruction ROM, the program length and the jump table are as they were (R44). -/
def State.sameProgram (s t : State) : Prop := t.irom = s.irom ∧ t.n = s.n ∧ t.jt = s.jt

/-- The data pointer and the extent are as they were. -/
def State.samePointer (s t : State) : Prop := t.dp = s.dp ∧ t.lo = s.lo ∧ t.hi = s.hi

/-- Every cell but `i` reads as it did. -/
def State.sameCellsBut (s t : State) (i : Int) : Prop := ∀ j : Int, j ≠ i → t.tape.read j = s.tape.read j

/-- Every cell reads as it did. -/
def State.sameCells (s t : State) : Prop := ∀ j : Int, t.tape.read j = s.tape.read j

/-- No transaction on the I/O channels: the record and the answers to come are as they were. -/
def State.sameIo (s t : State) : Prop := t.events = s.events ∧ t.answers = s.answers

/-- What no instruction that completes changes: `FAULT_REASON`, the capacities, and the host's `rst` and `load`. -/
def State.sameControl (s t : State) : Prop :=
  t.faultReason = s.faultReason ∧ t.cap = s.cap ∧ t.rst = s.rst ∧ t.loadPort = s.loadPort

/-- An instruction of `s` has ended in `t` with `next_ip = k` (R75): `IP` is `k`, and `PHASE` is `HALTED` if `k` is `N`,
else as it was (R74). -/
def State.retiredAt (s t : State) (k : Nat) : Prop :=
  t.ip = k ∧ (k = s.n → t.phase = .halted) ∧ (k ≠ s.n → t.phase = s.phase)

end Sys2Proof.Machine
end

