-- ==== Sys2Proof/WellFormed.lean ====
section
/-! DEFINITION. Well-formedness. An instruction has no operand, so nothing in one can be ill-formed (R63); a PROGRAM is well-formed when its brackets match (R12). -/

namespace Sys2Proof

/-- R63: no operand field, no immediate; every instruction is well-formed as it stands. -/
def Instr.wf : Instr → Bool
  | .inc | .dec | .right | .left | .out | .inp | .jz | .jnz => true

/-- `closesFrom d p`: read after `d` open brackets, `p` closes every bracket it meets and leaves none open. -/
def closesFrom : Nat → List Instr → Bool
  | d, [] => d == 0
  | d, i :: p =>
    match i with
    | .jz => closesFrom (d + 1) p
    | .jnz =>
      match d with
      | 0 => false
      | d' + 1 => closesFrom d' p
    | .inc | .dec | .right | .left | .out | .inp => closesFrom d p

/-- R12 *Well-formed*: every `[` has a later matching `]` at the same nesting depth, and vice versa. -/
def wellFormed (p : List Instr) : Bool := closesFrom 0 p

end Sys2Proof
end

