-- ==== Sys2Proof/Certificates/Slice0/Obligations.lean ====
section
/-! DEFINITION. The statements for the provers: what the rules of spec/ say the core does, over every state. -/

open Sys2Proof Sys2Proof.Machine

/-! ### Encoding and decoding -/

/-- R65: the decoder's whole table, each word written out in bits, and `illegal` for every other word. -/
def Obligations.DecoderReadsWrittenOutWords : Prop :=
  decode 0b00101011#8 = .op .inc ∧ opCode .inc = 0b000#3
  ∧ decode 0b00101101#8 = .op .dec ∧ opCode .dec = 0b001#3
  ∧ decode 0b00111110#8 = .op .right ∧ opCode .right = 0b010#3
  ∧ decode 0b00111100#8 = .op .left ∧ opCode .left = 0b011#3
  ∧ decode 0b00101110#8 = .op .out ∧ opCode .out = 0b100#3
  ∧ decode 0b00101100#8 = .op .inp ∧ opCode .inp = 0b101#3
  ∧ decode 0b01011011#8 = .op .jz ∧ opCode .jz = 0b110#3
  ∧ decode 0b01011101#8 = .op .jnz ∧ opCode .jnz = 0b111#3
  ∧ ∀ w : Word, w ∉ [0x2B#8, 0x2D#8, 0x3E#8, 0x3C#8, 0x2E#8, 0x2C#8, 0x5B#8, 0x5D#8] → decode w = .illegal

/-- R66 (the spec's own inference): a word decodes to an instruction exactly when it is that instruction's one word. -/
def Obligations.DecodeInvertsEncodeExactly : Prop :=
  ∀ (w : Word) (i : Instr), decode w = .op i ↔ w = encode i

/-- R42, R61, R70: no instruction of a program is lost on the way to words and back, the sanitizer keeps a program's words
as they are, and every sanitized source is the words of some program. -/
def Obligations.ProgramWordsRoundTrip : Prop :=
  (∀ p : List Instr, decodeProgram (encodeProgram p) = some p ∧ sanitize (encodeProgram p) = encodeProgram p)
  ∧ ∀ src : List Byte, ∃ p, decodeProgram (sanitize src) = some p ∧ encodeProgram p = sanitize src

/-! ### The sanitizer -/

/-- R80: the sanitized stream is the source with some bytes dropped and the order kept; of the eight instruction words it
has every occurrence, and of any other byte none. -/
def Obligations.SanitizerKeepsExactlyInstructionWords : Prop :=
  ∀ src : List Byte, (sanitize src).Sublist src
    ∧ ∀ b : Byte, (b ∈ [0x2B#8, 0x2C#8, 0x2D#8, 0x2E#8, 0x3C#8, 0x3E#8, 0x5B#8, 0x5D#8] →
          (sanitize src).count b = src.count b)
        ∧ (b ∉ [0x2B#8, 0x2C#8, 0x2D#8, 0x2E#8, 0x3C#8, 0x3E#8, 0x5B#8, 0x5D#8] → (sanitize src).count b = 0)

/-- R81: sanitizing twice is sanitizing once, and a source with no instruction word, the empty one among them, yields the
empty stream. -/
def Obligations.SanitizerIsIdempotent : Prop :=
  (∀ src : List Byte, sanitize (sanitize src) = sanitize src)
  ∧ ∀ src : List Byte, (∀ b ∈ src, ∀ i, b ≠ encode i) → sanitize src = []

/-- R82 (the spec's own inference): the bytes of non-ASCII characters, all 0x80 or above, make no difference. -/
def Obligations.SanitizerIgnoresNonAsciiBytes : Prop :=
  ∀ src : List Byte, sanitize (src.filter fun b => decide (b.toNat < 0x80)) = sanitize src

/-! ### The jump-table builder -/

/-- R46: in the table of any stream the builder accepts, every bracket has an entry, the entry of the entry leads back, a
`[` pairs with a later `]` and a `]` with an earlier `[`, the table has no other entry (R27), and its domain has even
size. -/
def Obligations.BuilderPairsEveryBracket : Prop :=
  ∀ (ws : List Word) (jt : List (Option Nat)), buildJumpTable ws = some jt →
    Pairing ws jt ∧ (jt.countP Option.isSome) % 2 = 0

/-- R88 (nesting is the spec's own inference): two matched pairs are disjoint or one lies strictly inside the other. -/
def Obligations.BuilderPairsNestProperly : Prop :=
  ∀ (ws : List Word) (jt : List (Option Nat)), buildJumpTable ws = some jt →
    ∀ o c o' c' : Nat, MatchedPair ws jt o c → MatchedPair ws jt o' c' → o < o' → c < o' ∨ c' < c

/-- R86, R87: the builder refuses a stream exactly when some prefix holds more `]` than `[` (a `]` met with an empty
stack), or the whole does not hold as many of each (a stack not empty at the end). -/
def Obligations.BuilderRefusesExactlyUnmatched : Prop :=
  ∀ ws : List Word, buildJumpTable ws = none ↔
    (∃ k, (ws.take k).count 0x5B#8 < (ws.take k).count 0x5D#8) ∨ ws.count 0x5B#8 ≠ ws.count 0x5D#8

/-- R12, R123: the builder accepts the words of a program exactly when the program is well-formed. -/
def Obligations.BuilderAcceptsExactlyWellFormed : Prop :=
  ∀ p : List Instr, (buildJumpTable (encodeProgram p)).isSome = wellFormed p

/-- R92 (the spec's own inference): the table's target of a `[` is the first index after it up to which the stream holds
as many `]` as `[`, and that of a `]` is the last index before it from which it does. -/
def Obligations.JumpTableAgreesWithRescan : Prop :=
  ∀ (ws : List Word) (jt : List (Option Nat)), buildJumpTable ws = some jt →
    (∀ o c : Nat, ws[o]? = some 0x5B#8 → entry jt o = some c →
      o < c ∧ countIn 0x5D#8 ws o c = countIn 0x5B#8 ws o c
      ∧ ∀ k, o < k → k < c → countIn 0x5D#8 ws o k ≠ countIn 0x5B#8 ws o k)
    ∧ ∀ o c : Nat, ws[c]? = some 0x5D#8 → entry jt c = some o →
      o < c ∧ countIn 0x5D#8 ws o c = countIn 0x5B#8 ws o c
      ∧ ∀ k, o < k → k < c → countIn 0x5D#8 ws k c ≠ countIn 0x5B#8 ws k c

/-! ### Reset and load -/

/-- R37, the after-reset column. -/
def Obligations.ResetStateHoldsListedValues : Prop :=
  State.reset.phase = .idle ∧ State.reset.faultReason = .none
  ∧ (∀ i, State.reset.iread i = none) ∧ State.reset.n = 0 ∧ (∀ i, State.reset.jread i = none)
  ∧ State.reset.ip = 0 ∧ State.reset.dp = 0 ∧ State.reset.lo = 0 ∧ State.reset.hi = 0
  ∧ State.reset.memRead 0 = some 0#8

/-- R138: whatever the core is doing, a raised `rst` gives every register its after-reset value, and a `,` that waits is
abandoned: its request is gone. -/
def Obligations.ResetDiscardsAllState : Prop :=
  ∀ s : State, s.rst = true → ∃ t, step s = .next t
    ∧ t.phase = .idle ∧ t.faultReason = .none ∧ t.irom = [] ∧ t.jt = [] ∧ t.n = 0
    ∧ t.ip = 0 ∧ t.dp = 0 ∧ t.lo = 0 ∧ t.hi = 0 ∧ (∀ i, t.tape.read i = 0#8)
    ∧ t.inReq = false ∧ t.blocked = false

/-- The model's choices (assumptions 3, 5 and 6), beside R138: the reset takes the event `rst`, so the step after it is no
reset; it empties the record, and leaves the host's source and answers and the capacities as they are. Any other step
leaves `rst` and the capacities alone. -/
def Obligations.ResetTakesEventAndKeepsHostSide : Prop :=
  (∀ s : State, s.rst = true → ∃ t, step s = .next t
    ∧ t.rst = false ∧ t.events = [] ∧ t.answers = s.answers ∧ t.loadPort = s.loadPort ∧ t.cap = s.cap)
  ∧ ∀ s t : State, step s = .next t → s.rst = false → t.rst = false ∧ t.cap = s.cap

/-- R89: the load step, with every outcome; a refused load writes the status alone; and without a source, or outside
`IDLE`, no step loads anything. That a load takes its source is `AcceptedSourceIsLoadedOnce`. -/
def Obligations.LoadStepOutcomes : Prop :=
  (∀ (s : State) (src : List Byte), s.phase = .idle → s.rst = false → s.loadPort = some src →
    ((∃ c, s.cap.prog = some c ∧ c < (sanitize src).length) → ∃ t, step s = .next t
      ∧ t.phase = .fault ∧ t.faultReason = .progOverflow
      ∧ s.sameProgram t ∧ s.samePointer t ∧ t.ip = s.ip ∧ t.tape = s.tape ∧ s.sameIo t)
    ∧ ((∀ c, s.cap.prog = some c → (sanitize src).length ≤ c) →
      (buildJumpTable (sanitize src) = none → ∃ t, step s = .next t
        ∧ t.phase = .malformed ∧ t.faultReason = s.faultReason
        ∧ s.sameProgram t ∧ s.samePointer t ∧ t.ip = s.ip ∧ t.tape = s.tape ∧ s.sameIo t)
      ∧ ∀ jt, buildJumpTable (sanitize src) = some jt → ∃ t, step s = .next t
        ∧ t.irom = sanitize src ∧ t.n = (sanitize src).length ∧ t.jt = jt
        ∧ t.ip = 0 ∧ t.dp = 0 ∧ t.lo = 0 ∧ t.hi = 0 ∧ t.tape.read 0 = 0#8 ∧ t.faultReason = .none
        ∧ (sanitize src = [] → t.phase = .halted) ∧ (sanitize src ≠ [] → t.phase = .run)
        ∧ s.sameIo t))
  ∧ ∀ s t : State, step s = .next t → s.rst = false → (s.phase ≠ .idle ∨ s.loadPort = none) →
      s.sameProgram t

/-- The model's choice (assumption 5), beside R89: a load step takes its source, whatever the outcome, so a source is
loaded once; and no other step, a reset among them, takes one or makes one up. -/
def Obligations.AcceptedSourceIsLoadedOnce : Prop :=
  (∀ (s : State) (src : List Byte), s.phase = .idle → s.rst = false → s.loadPort = some src →
    ∃ t, step s = .next t ∧ t.loadPort = none ∧ t.rst = false ∧ s.sameIo t ∧ t.cap = s.cap)
  ∧ ∀ s t : State, step s = .next t → (s.rst = true ∨ s.phase ≠ .idle ∨ s.loadPort = none) → t.loadPort = s.loadPort

/-- R84: with a finite `PROG_CAP` a longer sanitized program raises `PROG_OVERFLOW` and stores nothing else; with none,
or within it, no load does. -/
def Obligations.ProgramCapacityOverflow : Prop :=
  ∀ (s : State) (src : List Byte),
    ((∃ c, s.cap.prog = some c ∧ c < (sanitize src).length) →
      s.load src = { s with phase := .fault, faultReason := .progOverflow })
    ∧ (s.phase = .idle → (∀ c, s.cap.prog = some c → (sanitize src).length ≤ c) → (s.load src).phase ≠ .fault)

/-! ### The step -/

/-- R75: a running core's step is the meaning of the instruction decoded at `IP`, with nothing around it: advancing `IP`
and halting at `N` are part of each meaning. -/
def Obligations.StepRunsDecodedInstruction : Prop :=
  ∀ (s : State) (w : Word) (i : Instr), s.stepping → s.iread s.ip = some w → decode w = .op i → step s = exec i s

/-- R67: a fetched word that is not one of the eight raises `ILLEGAL_WORD`; it is no no-op and is not skipped, and no
sanitized stream holds one. -/
def Obligations.IllegalWordRaisesFault : Prop :=
  (∀ (s : State) (w : Word), s.stepping → s.iread s.ip = some w → (∀ i, w ≠ encode i) →
    step s = .next { s with phase := .fault, faultReason := .illegalWord })
  ∧ ∀ (src : List Byte) (w : Word), w ∈ sanitize src → ∃ i, w = encode i

/-- R128: whenever a step enters `FAULT` it writes `PHASE` and `FAULT_REASON` and nothing else of the core, does no I/O and
leaves `IP` where it was; from `FAULT` no step leads on but reset, so nothing else clears `FAULT_REASON`. -/
def Obligations.FaultIsPrecise : Prop :=
  (∀ s t : State, step s = .next t → s.phase ≠ .fault → t.phase = .fault →
    t.faultReason ≠ .none ∧ s.sameProgram t ∧ s.samePointer t ∧ t.ip = s.ip ∧ t.tape = s.tape ∧ s.sameIo t)
  ∧ ∀ s t : State, step s = .next t → s.phase = .fault → s.rst = true ∧ t.phase = .idle ∧ t.faultReason = .none

/-- The model's choice (assumption 2), after R128: from `FAULT`, with no reset raised, the model stops. -/
def Obligations.FaultPhaseStopsTheModel : Prop :=
  ∀ s : State, s.phase = .fault → s.rst = false → step s = .fault (.inFaultPhase s.faultReason)

/-- U11: a state whose `PHASE` is a reserved code is refused, unless it is reset. -/
def Obligations.ReservedPhaseIsRefused : Prop :=
  ∀ s : State, s.rst = false → (s.phase = .reserved5 ∨ s.phase = .reserved6 ∨ s.phase = .reserved7) →
    step s = .refused (.reservedPhase s.phase)

/-- R31: every change of `PHASE` is one the rule lists, and only reset leaves `HALTED`, `MALFORMED` and `FAULT`. -/
def Obligations.PhaseChangesOnlyAsListed : Prop :=
  ∀ s t : State, step s = .next t → t.phase ≠ s.phase →
    (s.rst = true ∧ t.phase = .idle)
    ∨ (s.rst = false ∧ s.phase = .idle ∧ s.loadPort ≠ none
        ∧ (t.phase = .run ∨ t.phase = .halted ∨ t.phase = .malformed ∨ t.phase = .fault))
    ∨ (s.rst = false ∧ s.phase = .run ∧ (t.phase = .halted ∨ t.phase = .fault))

/-- R137 (assumption 1: a step offered then changes nothing): in `HALTED`, in `MALFORMED`, and in `IDLE` with no source
presented, the core does nothing until reset or a load. -/
def Obligations.IdleAndEndedCoreDoesNothing : Prop :=
  ∀ s : State, s.rst = false →
    (s.phase = .halted ∨ s.phase = .malformed ∨ (s.phase = .idle ∧ s.loadPort = none)) → step s = .next s

/-- R74: between steps a run that has not faulted has halted exactly when `IP = N`. -/
def Obligations.HaltExactlyAtProgramEnd : Prop :=
  ∀ s t : State, s.Inv → s.stepping → step s = .next t →
    t.phase ≠ .fault → (t.phase = .halted ↔ t.ip = t.n) ∧ (t.phase = .run ↔ t.ip < t.n)

/-- R44: outside reset and load no step writes `IROM`, `N` or `JT`, and no instruction does in any phase. -/
def Obligations.ProgramIsReadOnly : Prop :=
  (∀ s t : State, step s = .next t → s.rst = false → s.phase ≠ .idle → s.sameProgram t)
  ∧ ∀ (i : Instr) (s t : State), exec i s = .next t → s.sameProgram t

/-- R76, R118: an instruction step leaves `IP` one on, or one past the jump-table entry of a bracket; it stays only where
the step waits for input (assumption 1) or raises a fault. -/
def Obligations.ControlFlowOnlyThroughBrackets : Prop :=
  ∀ (i : Instr) (s t : State), exec i s = .next t →
    t.ip = s.ip + 1
    ∨ ((i = .jz ∨ i = .jnz) ∧ ∃ k, s.jread s.ip = some k ∧ t.ip = k + 1)
    ∨ (i = .inp ∧ s.answers = [] ∧ t = s)
    ∨ ((i = .right ∨ i = .left) ∧ t.phase = .fault ∧ t.ip = s.ip)

/-! ### Cells -/

/-- R57: a cell reads as what was last written to it, and a write to one cell touches no other. -/
def Obligations.TapeReadAfterWrite : Prop :=
  ∀ (t : Tape) (i j : Int) (v : Byte), (t.write i v).read j = if j = i then v else t.read j

/-- The tape's canonical form (assumption 7): every write keeps it, and canonical tapes with equal cells are equal. -/
def Obligations.TapeFormIsCanonical : Prop :=
  (∀ (t : Tape) (i : Int) (v : Byte), t.wf = true → (t.write i v).wf = true)
  ∧ ∀ t u : Tape, t.wf = true → u.wf = true → (∀ i, t.read i = u.read i) → t = u

/-- R93: modulo 256 both ways, on the unsigned values. -/
def Obligations.ArithmeticUnitWrapsModulo256 : Prop :=
  ∀ a : Byte, (alu .inc a).toNat = (a.toNat + 1) % 256 ∧ (alu .dec a).toNat = (a.toNat + 255) % 256
    ∧ ((alu .dec a).toNat : Int) = ((a.toNat : Int) - 1) % 256

/-- R94: 1 for the value 0, 0 for 1..255. -/
def Obligations.ZeroDetectorSeesOnlyZero : Prop :=
  ∀ a : Byte, (a.toNat = 0 → zeroDetect a = true) ∧ (1 ≤ a.toNat → zeroDetect a = false)

/-- R96: `+` on any cell with storage completes. -/
def Obligations.IncIncrementsCurrentCell : Prop :=
  decode 0x2B#8 = .op .inc ∧
  ∀ s : State, s.hasCell s.dp = true → ∃ t, exec .inc s = .next t
    ∧ t.cell.toNat = (s.cell.toNat + 1) % 256
    ∧ s.sameCellsBut t s.dp ∧ s.samePointer t ∧ s.sameProgram t ∧ s.sameIo t ∧ s.sameControl t
    ∧ s.retiredAt t (s.ip + 1)

/-- R97: `-` on any cell with storage completes. -/
def Obligations.DecDecrementsCurrentCell : Prop :=
  decode 0x2D#8 = .op .dec ∧
  ∀ s : State, s.hasCell s.dp = true → ∃ t, exec .dec s = .next t
    ∧ t.cell.toNat = (s.cell.toNat + 255) % 256
    ∧ s.sameCellsBut t s.dp ∧ s.samePointer t ∧ s.sameProgram t ∧ s.sameIo t ∧ s.sameControl t
    ∧ s.retiredAt t (s.ip + 1)

/-- The model's choice (assumption 8): an instruction that needs the current cell stops where that cell has no storage. -/
def Obligations.CellOutsideExtentFaults : Prop :=
  ∀ (i : Instr) (s : State), s.hasCell s.dp = false →
    (i = .inc ∨ i = .dec ∨ i = .out ∨ i = .jz ∨ i = .jnz ∨ (i = .inp ∧ s.answers ≠ [])) →
    exec i s = .fault .cellOutsideExtent

/-! ### The data pointer -/

/-- R98: the transition table, for a pointer inside its extent and a tape that may grow. -/
def Obligations.PointerMachineTransitions : Prop :=
  ∀ (cap : Option Nat) (dp lo hi : Int), lo ≤ dp → dp ≤ hi →
    (dp + 1 ≤ hi → pointerMachine cap .right dp lo hi = ⟨dp + 1, lo, hi, false, false⟩)
    ∧ (lo ≤ dp - 1 → pointerMachine cap .left dp lo hi = ⟨dp - 1, lo, hi, false, false⟩)
    ∧ ((∀ c : Nat, cap = some c → hi - lo + 2 ≤ c) →
      (dp + 1 = hi + 1 → pointerMachine cap .right dp lo hi = ⟨dp + 1, lo, hi + 1, true, false⟩)
      ∧ (dp - 1 = lo - 1 → pointerMachine cap .left dp lo hi = ⟨dp - 1, lo - 1, hi, true, false⟩))

/-- R99: `>` completes inside the extent, and at its end where the capacity leaves room; where it leaves none it raises
`TAPE_OVERFLOW`. -/
def Obligations.RightMovesAndGrows : Prop :=
  decode 0x3E#8 = .op .right ∧
  ∀ s : State,
    (s.dp + 1 ≤ s.hi → ∃ t, exec .right s = .next t
      ∧ t.dp = s.dp + 1 ∧ t.lo = s.lo ∧ t.hi = s.hi ∧ s.sameCells t
      ∧ s.sameProgram t ∧ s.sameIo t ∧ s.sameControl t ∧ s.retiredAt t (s.ip + 1))
    ∧ (s.hi < s.dp + 1 → (∀ c : Nat, s.cap.tape = some c → s.extent + 1 ≤ c) → ∃ t, exec .right s = .next t
      ∧ t.dp = s.dp + 1 ∧ t.lo = s.lo ∧ t.hi = s.dp + 1
      ∧ t.tape.read (s.dp + 1) = 0#8 ∧ s.sameCellsBut t (s.dp + 1)
      ∧ s.sameProgram t ∧ s.sameIo t ∧ s.sameControl t ∧ s.retiredAt t (s.ip + 1))
    ∧ ∀ c : Nat, s.hi < s.dp + 1 → s.cap.tape = some c → (c : Int) < s.extent + 1 →
      exec .right s = .next { s with phase := .fault, faultReason := .tapeOverflow }

/-- R100: `<`, the mirror of R99; going left of cell 0 is legal. -/
def Obligations.LeftMovesAndGrows : Prop :=
  decode 0x3C#8 = .op .left ∧
  ∀ s : State,
    (s.lo ≤ s.dp - 1 → ∃ t, exec .left s = .next t
      ∧ t.dp = s.dp - 1 ∧ t.lo = s.lo ∧ t.hi = s.hi ∧ s.sameCells t
      ∧ s.sameProgram t ∧ s.sameIo t ∧ s.sameControl t ∧ s.retiredAt t (s.ip + 1))
    ∧ (s.dp - 1 < s.lo → (∀ c : Nat, s.cap.tape = some c → s.extent + 1 ≤ c) → ∃ t, exec .left s = .next t
      ∧ t.dp = s.dp - 1 ∧ t.lo = s.dp - 1 ∧ t.hi = s.hi
      ∧ t.tape.read (s.dp - 1) = 0#8 ∧ s.sameCellsBut t (s.dp - 1)
      ∧ s.sameProgram t ∧ s.sameIo t ∧ s.sameControl t ∧ s.retiredAt t (s.ip + 1))
    ∧ ∀ c : Nat, s.dp - 1 < s.lo → s.cap.tape = some c → (c : Int) < s.extent + 1 →
      exec .left s = .next { s with phase := .fault, faultReason := .tapeOverflow }

/-- R102: a growth beyond a finite `TAPE_CAP` raises the fault and keeps every other field. Nothing else does: an instruction
that enters `FAULT` is such a growth, so none of the six others faults, nor a move with no capacity, inside the extent or
with room; and a step of any kind that raises `TAPE_OVERFLOW` runs such an instruction. -/
def Obligations.TapeCapacityOverflow : Prop :=
  ∀ s : State,
    (∀ i : Instr, s.growsBeyondCap i → exec i s = .next { s with phase := .fault, faultReason := .tapeOverflow })
    ∧ (∀ (i : Instr) (t : State), s.phase ≠ .fault → exec i s = .next t → t.phase = .fault → s.growsBeyondCap i)
    ∧ ∀ t : State, step s = .next t → t.phase = .fault → t.faultReason = .tapeOverflow →
      ∃ i, s.nextIs i ∧ s.growsBeyondCap i

/-- R101: an instruction changes the extent only by one cell, holding 0, at the end that a `>` or `<` crosses, and that
growth is no error. -/
def Obligations.GrowthAddsOneZeroCell : Prop :=
  ∀ (i : Instr) (s t : State), s.TapeInv → exec i s = .next t →
    (t.lo = s.lo ∧ t.hi = s.hi)
    ∨ (i = .right ∧ s.dp = s.hi ∧ t.dp = s.hi + 1 ∧ t.hi = s.hi + 1 ∧ t.lo = s.lo ∧ t.tape.read t.dp = 0#8
        ∧ t.faultReason = s.faultReason ∧ s.retiredAt t (s.ip + 1))
    ∨ (i = .left ∧ s.dp = s.lo ∧ t.dp = s.lo - 1 ∧ t.lo = s.lo - 1 ∧ t.hi = s.hi ∧ t.tape.read t.dp = 0#8
        ∧ t.faultReason = s.faultReason ∧ s.retiredAt t (s.ip + 1))

/-- R104, R48: outside reset and load the extent never shrinks, and a cell of it changes only if it is the current cell. -/
def Obligations.ExtentNeverShrinks : Prop :=
  ∀ s t : State, step s = .next t → s.rst = false → s.phase ≠ .idle →
    t.lo ≤ s.lo ∧ s.hi ≤ t.hi
    ∧ ∀ j : Int, s.lo ≤ j → j ≤ s.hi → j ≠ s.dp → t.tape.read j = s.tape.read j

/-- R103 (the spec's own inference): along any run of instruction steps that starts with the extent at the pointer, as a
load leaves it, the extent is exactly the set of indices the pointer has held. -/
def Obligations.ExtentIsExactlyTheVisitedRange : Prop :=
  ∀ (f : Nat → State) (k : Nat), (f 0).lo = (f 0).dp → (f 0).hi = (f 0).dp →
    (∀ j, j < k → (f j).stepping ∧ step (f j) = .next (f (j + 1))) →
    ∀ i : Int, ((f k).lo ≤ i ∧ i ≤ (f k).hi) ↔ ∃ j, j ≤ k ∧ (f j).dp = i

/-- R34 (for a tape without a capacity): what an instruction does depends on `LO` and `HI` in nothing but the extent. -/
def Obligations.ResultsDoNotDependOnExtent : Prop :=
  ∀ (i : Instr) (s t : State) (lo hi : Int), s.cap.tape = none → s.TapeInv →
    ({ s with lo := lo, hi := hi } : State).TapeInv → exec i s = .next t →
    ∃ u, exec i { s with lo := lo, hi := hi } = .next u
      ∧ u.ip = t.ip ∧ u.dp = t.dp ∧ u.phase = t.phase ∧ u.faultReason = t.faultReason
      ∧ u.events = t.events ∧ u.answers = t.answers ∧ ∀ j, u.tape.read j = t.tape.read j

/-! ### Input and output -/

/-- R106: `.` on any cell with storage completes and emits its value, 0 too. -/
def Obligations.OutEmitsCurrentCell : Prop :=
  decode 0x2E#8 = .op .out ∧
  ∀ s : State, s.hasCell s.dp = true → ∃ t, exec .out s = .next t
    ∧ t.events = s.events ++ [.out s.cell] ∧ t.answers = s.answers
    ∧ s.sameCells t ∧ s.samePointer t ∧ s.sameProgram t ∧ s.sameControl t ∧ s.retiredAt t (s.ip + 1)

/-- R109: `,` completes once the host answers: the byte, or 0 at end of input, whatever the cell held. -/
def Obligations.InWritesAnswerToCell : Prop :=
  decode 0x2C#8 = .op .inp ∧
  ∀ (s : State) (a : Answer) (rest : List Answer), s.hasCell s.dp = true → s.answers = a :: rest →
    ∃ t, exec .inp s = .next t
      ∧ (∀ b, a = .byte b → t.cell = b) ∧ (a = .eof → t.cell = 0#8)
      ∧ t.answers = rest ∧ t.events = s.events ++ [.input a]
      ∧ s.sameCellsBut t s.dp ∧ s.samePointer t ∧ s.sameProgram t ∧ s.sameControl t ∧ s.retiredAt t (s.ip + 1)

/-- R108 (assumption 1: the step offered while it waits changes nothing): until the host answers a `,` the core is blocked,
in `RUN` and with all its state, its request raised; and one answer is all that the step was waiting for. -/
def Obligations.InputBlocksUntilAnswered : Prop :=
  ∀ (s : State) (w : Word), s.stepping → s.iread s.ip = some w → decode w = .op .inp → s.answers = [] →
    step s = .next s ∧ s.inReq = true ∧ s.blocked = true
    ∧ ∀ a : Answer, s.hasCell s.dp = true →
      ∃ t, step (s.hostMove (.answer a)) = .next t ∧ t.answers = [] ∧ t.events = s.events ++ [.input a] ∧ t.ip = s.ip + 1

/-- R110: end of input writes 0 and the run goes on, and no program can tell it from a byte 0: the two next states differ in
the host's record (assumption 6) alone. -/
def Obligations.EndOfInputActsAsByteZero : Prop :=
  ∀ (s t : State) (rest : List Answer), exec .inp { s with answers := .eof :: rest } = .next t →
    t.cell = 0#8 ∧ t.ip = s.ip + 1 ∧ (s.phase = .run → t.phase = .run ∨ t.phase = .halted)
    ∧ exec .inp { s with answers := .byte 0#8 :: rest }
      = .next { t with events := s.events ++ [.input (.byte 0#8)] }

/-- R107, R111 (the record is assumption 6's; a waiting step is assumption 1's): outside reset the record only grows, by one
output for a `.` that completes and by one answer for a `,` that takes one, in step order. No other step adds to it or
takes an answer: no waiting `,`, no other instruction, no load, no illegal word, no step of an ended core. -/
def Obligations.TransactionsRecordedInStepOrder : Prop :=
  (∀ (i : Instr) (s t : State), exec i s = .next t →
    (i = .out → t.events = s.events ++ [.out s.cell] ∧ t.output = s.output ++ [s.cell]
      ∧ t.answersTaken = s.answersTaken ∧ t.answers = s.answers)
    ∧ (i = .inp →
      (∀ a rest, s.answers = a :: rest → t.events = s.events ++ [.input a]
        ∧ t.answersTaken = s.answersTaken ++ [a] ∧ t.output = s.output ∧ t.answers = rest)
      ∧ (s.answers = [] → s.sameIo t))
    ∧ (i ≠ .out → i ≠ .inp → s.sameIo t))
  ∧ ∀ s t : State, step s = .next t → s.rst = false →
    (∃ i, s.nextIs i ∧ exec i s = .next t) ∨ s.sameIo t

/-! ### Brackets -/

/-- R114: `[` completes: past the matching `]` on a zero cell, to the next instruction on any other. -/
def Obligations.JzSkipsLoopOnZero : Prop :=
  decode 0x5B#8 = .op .jz ∧
  ∀ s : State, s.hasCell s.dp = true →
    (∀ c, s.cell = 0#8 → s.jread s.ip = some c → ∃ t, exec .jz s = .next t ∧ s.retiredAt t (c + 1)
      ∧ s.sameCells t ∧ s.samePointer t ∧ s.sameProgram t ∧ s.sameIo t ∧ s.sameControl t)
    ∧ (s.cell ≠ 0#8 → ∃ t, exec .jz s = .next t ∧ s.retiredAt t (s.ip + 1)
      ∧ s.sameCells t ∧ s.samePointer t ∧ s.sameProgram t ∧ s.sameIo t ∧ s.sameControl t)

/-- R115: `]` completes: to the first instruction of the loop's body on a non-zero cell, to the next instruction on 0. -/
def Obligations.JnzRepeatsLoopOnNonzero : Prop :=
  decode 0x5D#8 = .op .jnz ∧
  ∀ s : State, s.hasCell s.dp = true →
    (∀ o, s.cell ≠ 0#8 → s.jread s.ip = some o → ∃ t, exec .jnz s = .next t ∧ s.retiredAt t (o + 1)
      ∧ s.sameCells t ∧ s.samePointer t ∧ s.sameProgram t ∧ s.sameIo t ∧ s.sameControl t)
    ∧ (s.cell = 0#8 → ∃ t, exec .jnz s = .next t ∧ s.retiredAt t (s.ip + 1)
      ∧ s.sameCells t ∧ s.samePointer t ∧ s.sameProgram t ∧ s.sameIo t ∧ s.sameControl t)

/-- R45: a taken bracket that finds no entry faults; it never goes on with an invented target. -/
def Obligations.AbsentJumpEntryFaults : Prop :=
  ∀ s : State, s.hasCell s.dp = true → s.jread s.ip = none →
    (s.cell = 0#8 → exec .jz s = .fault .absentJumpEntry)
    ∧ (s.cell ≠ 0#8 → exec .jnz s = .fault .absentJumpEntry)

/-- R115, R149: the `]` of an empty loop on a non-zero cell goes to itself, for ever. -/
def Obligations.EmptyLoopOnNonzeroNeverEnds : Prop :=
  ∀ (s : State) (o k : Nat), s.stepping → s.iread s.ip = some 0x5D#8 → s.jread s.ip = some o → o + 1 = s.ip →
    s.hasCell s.dp = true → s.cell ≠ 0#8 → Sys2Proof.core.run k s = .next s

/-! ### Invariants -/

/-- R38 and its companions hold right after reset, for every pair of capacities. -/
def Obligations.InvariantHoldsAtReset : Prop :=
  ∀ cap : Capacities, ({ State.reset with cap := cap } : State).Inv

/-- R38 (the spec's own inference), R24, R30, R46, R74: the invariant is kept by every step, from every state that has it. -/
def Obligations.EveryStepKeepsInvariant : Prop :=
  ∀ s t : State, s.Inv → step s = .next t → t.Inv

/-- R35, R112: whatever the host does at its ports, the invariant is kept, and no register of the core is written. -/
def Obligations.HostMovesKeepInvariant : Prop :=
  ∀ (s : State) (m : HostMove), s.Inv → (s.hostMove m).Inv
    ∧ s.sameProgram (s.hostMove m) ∧ s.samePointer (s.hostMove m) ∧ (s.hostMove m).ip = s.ip
    ∧ (s.hostMove m).tape = s.tape ∧ (s.hostMove m).status = s.status

/-- R122, R127 (the spec's own inference): a running core that has the invariant always has a next state, and the only
fault it can raise is `TAPE_OVERFLOW`, under a finite `TAPE_CAP`. That an unanswered `,`, where R108 gives the core no
step, has a next state too, the same one, is the model's choice (assumption 1), and so is that a fault is raised by a
next state (assumption 2). -/
def Obligations.RunningCoreAlwaysProceeds : Prop :=
  ∀ s : State, s.Inv → s.stepping → ∃ t, step s = .next t
    ∧ (t.phase = .run ∨ t.phase = .halted ∨ (t.phase = .fault ∧ t.faultReason = .tapeOverflow ∧ s.cap.tape ≠ none))

/-- R67, R43: in every state the core and its host can reach, a step neither fetches outside the program, nor touches a
cell without storage, nor reads an absent entry, nor meets a reserved `PHASE`: the model stops only in `FAULT`. That a step
where none is enabled has a next state is the model's choice (assumption 1), and so is the stop in `FAULT` (assumption 2). -/
def Obligations.ReachableStepsStopOnlyInFault : Prop :=
  ∀ s : State, Reachable s → (∃ t, step s = .next t) ∨ step s = .fault (.inFaultPhase s.faultReason)

/-! ### What the host sees -/

/-- R126: 0 for `HALTED`, some non-zero value for `MALFORMED`, none for `IDLE`, `RUN` and `FAULT`. -/
def Obligations.ExitStatusFollowsPhase : Prop :=
  ∀ s : State, (s.phase = .halted → s.exitStatus = some 0)
    ∧ (s.phase = .malformed → ∃ e, e ≠ 0 ∧ s.exitStatus = some e)
    ∧ (s.phase = .idle ∨ s.phase = .run ∨ s.phase = .fault → s.exitStatus = none)

/-- R30, R32, R35: the codes on the `status` port. -/
def Obligations.StatusPortShowsCodes : Prop :=
  ∀ s : State,
    (s.phase = .idle → s.status.1 = 0b000#3) ∧ (s.phase = .run → s.status.1 = 0b001#3)
    ∧ (s.phase = .halted → s.status.1 = 0b010#3) ∧ (s.phase = .malformed → s.status.1 = 0b011#3)
    ∧ (s.phase = .fault → s.status.1 = 0b100#3)
    ∧ (s.faultReason = .none → s.status.2 = 0b00#2) ∧ (s.faultReason = .illegalWord → s.status.2 = 0b01#2)
    ∧ (s.faultReason = .progOverflow → s.status.2 = 0b10#2) ∧ (s.faultReason = .tapeOverflow → s.status.2 = 0b11#2)

/-- R141: a run has a result exactly in `HALTED` and `MALFORMED`; a halted run's holds its output, its answers and, with
`IP = N` and the pointers, the cells `LO..HI`. -/
def Obligations.ResultOnlyOfEndedRun : Prop :=
  ∀ s : State, s.Inv →
    (s.result? ≠ none ↔ s.phase = .halted ∨ s.phase = .malformed)
    ∧ (s.phase = .halted → ∃ r f, s.result? = some r ∧ r.exitStatus = 0 ∧ r.output = s.output
      ∧ r.answersTaken = s.answersTaken ∧ r.final = some f ∧ f.ip = s.n ∧ f.dp = s.dp ∧ f.lo = s.lo ∧ f.hi = s.hi
      ∧ (f.cells.length : Int) = s.extent
      ∧ ∀ k : Nat, (k : Int) < s.extent → f.cells[k]? = some (s.tape.read (s.lo + k)))
    ∧ (s.phase = .malformed → ∃ r, s.result? = some r ∧ r.exitStatus ≠ 0 ∧ r.output = [] ∧ r.answersTaken = [])

/-- The host's interface (assumption 11): the word given to `withFetchWord` is the one the next step fetches and runs. -/
def Obligations.FetchWordIsFetchedNext : Prop :=
  ∀ (s : State) (w : Nat), (s.withFetchWord 8 w).stepping
    ∧ (s.withFetchWord 8 w).iread (s.withFetchWord 8 w).ip = some (BitVec.ofNat 8 w)
    ∧ ∀ i, decodeTableWord 8 w = some i → step (s.withFetchWord 8 w) = exec i (s.withFetchWord 8 w)
end

