-- ==== Sys2Proof/Laws/Memory.lean ====
section
/-! SUPPORT. The laws of the tape's cells: a read after a write, and the canonical form that every write keeps. -/

namespace Sys2Proof.Machine

theorem Memory.read_erase (m : Memory) (a b : Nat) :
    Memory.read b (Memory.erase a m) = if b = a then 0#8 else Memory.read b m := by
  induction m with
  | nil => simp [Memory.erase, Memory.read]
  | cons c rest ih =>
    obtain ⟨k, v⟩ := c
    unfold Memory.erase at ih ⊢
    by_cases hk : k = a
    · subst hk
      rw [List.filter_cons_of_neg (by simp), ih]
      by_cases hb : b = k <;> simp [Memory.read, hb]
    · rw [List.filter_cons_of_pos (by simpa using hk)]
      simp only [Memory.read]
      by_cases hb : b = k
      · simp [hb, hk]
      · simp [hb, ih]

theorem Memory.read_insert (m : Memory) (a b : Nat) (v : Byte) :
    Memory.read b (Memory.insert a v m) = if b = a then v else Memory.read b m := by
  induction m with
  | nil => by_cases hb : b = a <;> simp [Memory.insert, Memory.read, hb]
  | cons c rest ih =>
    obtain ⟨k, w⟩ := c
    unfold Memory.insert
    split
    · by_cases hb : b = a <;> simp [Memory.read, hb]
    · split
      next h => subst h; by_cases hb : b = a <;> simp [Memory.read, hb]
      next h =>
        simp only [Memory.read, ih]
        by_cases hb : b = k
        · subst hb; simp [Ne.symm h]
        · simp [hb]

theorem Memory.read_write (m : Memory) (a b : Nat) (v : Byte) :
    Memory.read b (Memory.write a v m) = if b = a then v else Memory.read b m := by
  unfold Memory.write
  split
  next h => subst h; exact Memory.read_erase m a b
  next => exact Memory.read_insert m a b v

/-- A canonical memory from `l` on is one from any lower bound on. -/
theorem Memory.wfFrom_mono {m : Memory} {l l' : Nat} (hl : l' ≤ l) (h : Memory.wfFrom l m = true) :
    Memory.wfFrom l' m = true := by
  cases m with
  | nil => rfl
  | cons c rest =>
    simp only [Memory.wfFrom, Bool.and_eq_true, decide_eq_true_eq] at h ⊢
    exact ⟨⟨by omega, h.1.2⟩, h.2⟩

theorem Memory.wfFrom_erase {m : Memory} {l : Nat} (a : Nat) (h : Memory.wfFrom l m = true) :
    Memory.wfFrom l (Memory.erase a m) = true := by
  induction m generalizing l with
  | nil => rfl
  | cons c rest ih =>
    obtain ⟨k, b⟩ := c
    simp only [Memory.wfFrom, Bool.and_eq_true, decide_eq_true_eq] at h
    have hrest := ih h.2
    unfold Memory.erase at hrest ⊢
    by_cases hk : k = a
    · rw [List.filter_cons_of_neg (by simpa using hk)]
      exact Memory.wfFrom_mono (by omega) hrest
    · rw [List.filter_cons_of_pos (by simpa using hk)]
      simp only [Memory.wfFrom, Bool.and_eq_true, decide_eq_true_eq]
      exact ⟨h.1, hrest⟩

theorem Memory.wfFrom_insert {m : Memory} {l a : Nat} {v : Byte} (hl : l ≤ a) (hv : v ≠ 0#8)
    (h : Memory.wfFrom l m = true) : Memory.wfFrom l (Memory.insert a v m) = true := by
  induction m generalizing l with
  | nil => simp [Memory.insert, Memory.wfFrom, hl, hv]
  | cons c rest ih =>
    obtain ⟨k, b⟩ := c
    simp only [Memory.wfFrom, Bool.and_eq_true, decide_eq_true_eq] at h
    obtain ⟨⟨hk, hb⟩, hrest⟩ := h
    unfold Memory.insert
    split
    next hak =>
      simp only [Memory.wfFrom, Bool.and_eq_true, decide_eq_true_eq]
      exact ⟨⟨hl, by simpa using hv⟩, ⟨by omega, hb⟩, hrest⟩
    next hak =>
      split
      next heq =>
        subst heq
        simp only [Memory.wfFrom, Bool.and_eq_true, decide_eq_true_eq]
        exact ⟨⟨hl, by simpa using hv⟩, hrest⟩
      next hne =>
        simp only [Memory.wfFrom, Bool.and_eq_true, decide_eq_true_eq]
        exact ⟨⟨hk, hb⟩, ih (by omega) hrest⟩

/-- Every store to a memory keeps its canonical form. -/
theorem Memory.wf_write {m : Memory} (a : Nat) (v : Byte) (h : m.wf = true) : (Memory.write a v m).wf = true := by
  unfold Memory.write
  split
  next => exact Memory.wfFrom_erase a h
  next hv => exact Memory.wfFrom_insert (Nat.zero_le a) hv h

/-- Nothing is listed below the first key. -/
theorem Memory.read_below {m : Memory} {l a : Nat} (h : Memory.wfFrom l m = true) (ha : a < l) :
    Memory.read a m = 0#8 := by
  induction m generalizing l with
  | nil => rfl
  | cons c rest ih =>
    obtain ⟨k, b⟩ := c
    simp only [Memory.wfFrom, Bool.and_eq_true, decide_eq_true_eq] at h
    simp only [Memory.read]
    rw [if_neg (by omega), ih h.2 (by omega)]

@[simp] theorem Tape.read_blank (i : Int) : Tape.blank.read i = 0#8 := by cases i <;> rfl

@[simp] theorem Tape.wf_blank : Tape.blank.wf = true := rfl

theorem State.reset_tape_wf : State.reset.tape.wf = true := rfl

end Sys2Proof.Machine
end

