-- ==== Sys2Proof/Laws/State.lean ====
section
/-! SUPPORT. What each named update of the state does to each field: one lemma per field per update, so that no later proof
unfolds a record update. -/

namespace Sys2Proof.Machine

variable (s : State)

@[simp] theorem State.memWrite_irom (i : Int) (v : Byte) : (s.memWrite i v).irom = s.irom := rfl
@[simp] theorem State.memWrite_n (i : Int) (v : Byte) : (s.memWrite i v).n = s.n := rfl
@[simp] theorem State.memWrite_jt (i : Int) (v : Byte) : (s.memWrite i v).jt = s.jt := rfl
@[simp] theorem State.memWrite_ip (i : Int) (v : Byte) : (s.memWrite i v).ip = s.ip := rfl
@[simp] theorem State.memWrite_dp (i : Int) (v : Byte) : (s.memWrite i v).dp = s.dp := rfl
@[simp] theorem State.memWrite_lo (i : Int) (v : Byte) : (s.memWrite i v).lo = s.lo := rfl
@[simp] theorem State.memWrite_hi (i : Int) (v : Byte) : (s.memWrite i v).hi = s.hi := rfl
@[simp] theorem State.memWrite_tape (i : Int) (v : Byte) : (s.memWrite i v).tape = s.tape.write i v := rfl
@[simp] theorem State.memWrite_phase (i : Int) (v : Byte) : (s.memWrite i v).phase = s.phase := rfl
@[simp] theorem State.memWrite_faultReason (i : Int) (v : Byte) : (s.memWrite i v).faultReason = s.faultReason := rfl
@[simp] theorem State.memWrite_cap (i : Int) (v : Byte) : (s.memWrite i v).cap = s.cap := rfl
@[simp] theorem State.memWrite_rst (i : Int) (v : Byte) : (s.memWrite i v).rst = s.rst := rfl
@[simp] theorem State.memWrite_loadPort (i : Int) (v : Byte) : (s.memWrite i v).loadPort = s.loadPort := rfl
@[simp] theorem State.memWrite_answers (i : Int) (v : Byte) : (s.memWrite i v).answers = s.answers := rfl
@[simp] theorem State.memWrite_events (i : Int) (v : Byte) : (s.memWrite i v).events = s.events := rfl

@[simp] theorem State.outWrite_irom (v : Byte) : (s.outWrite v).irom = s.irom := rfl
@[simp] theorem State.outWrite_n (v : Byte) : (s.outWrite v).n = s.n := rfl
@[simp] theorem State.outWrite_jt (v : Byte) : (s.outWrite v).jt = s.jt := rfl
@[simp] theorem State.outWrite_ip (v : Byte) : (s.outWrite v).ip = s.ip := rfl
@[simp] theorem State.outWrite_dp (v : Byte) : (s.outWrite v).dp = s.dp := rfl
@[simp] theorem State.outWrite_lo (v : Byte) : (s.outWrite v).lo = s.lo := rfl
@[simp] theorem State.outWrite_hi (v : Byte) : (s.outWrite v).hi = s.hi := rfl
@[simp] theorem State.outWrite_tape (v : Byte) : (s.outWrite v).tape = s.tape := rfl
@[simp] theorem State.outWrite_phase (v : Byte) : (s.outWrite v).phase = s.phase := rfl
@[simp] theorem State.outWrite_faultReason (v : Byte) : (s.outWrite v).faultReason = s.faultReason := rfl
@[simp] theorem State.outWrite_cap (v : Byte) : (s.outWrite v).cap = s.cap := rfl
@[simp] theorem State.outWrite_rst (v : Byte) : (s.outWrite v).rst = s.rst := rfl
@[simp] theorem State.outWrite_loadPort (v : Byte) : (s.outWrite v).loadPort = s.loadPort := rfl
@[simp] theorem State.outWrite_answers (v : Byte) : (s.outWrite v).answers = s.answers := rfl
@[simp] theorem State.outWrite_events (v : Byte) : (s.outWrite v).events = s.events ++ [.out v] := rfl

@[simp] theorem State.inTake_irom (a : Answer) (r : List Answer) : (s.inTake a r).irom = s.irom := rfl
@[simp] theorem State.inTake_n (a : Answer) (r : List Answer) : (s.inTake a r).n = s.n := rfl
@[simp] theorem State.inTake_jt (a : Answer) (r : List Answer) : (s.inTake a r).jt = s.jt := rfl
@[simp] theorem State.inTake_ip (a : Answer) (r : List Answer) : (s.inTake a r).ip = s.ip := rfl
@[simp] theorem State.inTake_dp (a : Answer) (r : List Answer) : (s.inTake a r).dp = s.dp := rfl
@[simp] theorem State.inTake_lo (a : Answer) (r : List Answer) : (s.inTake a r).lo = s.lo := rfl
@[simp] theorem State.inTake_hi (a : Answer) (r : List Answer) : (s.inTake a r).hi = s.hi := rfl
@[simp] theorem State.inTake_tape (a : Answer) (r : List Answer) : (s.inTake a r).tape = s.tape := rfl
@[simp] theorem State.inTake_phase (a : Answer) (r : List Answer) : (s.inTake a r).phase = s.phase := rfl
@[simp] theorem State.inTake_faultReason (a : Answer) (r : List Answer) : (s.inTake a r).faultReason = s.faultReason := rfl
@[simp] theorem State.inTake_cap (a : Answer) (r : List Answer) : (s.inTake a r).cap = s.cap := rfl
@[simp] theorem State.inTake_rst (a : Answer) (r : List Answer) : (s.inTake a r).rst = s.rst := rfl
@[simp] theorem State.inTake_loadPort (a : Answer) (r : List Answer) : (s.inTake a r).loadPort = s.loadPort := rfl
@[simp] theorem State.inTake_answers (a : Answer) (r : List Answer) : (s.inTake a r).answers = r := rfl
@[simp] theorem State.inTake_events (a : Answer) (r : List Answer) : (s.inTake a r).events = s.events ++ [.input a] := rfl

@[simp] theorem State.retire_irom (k : Nat) : (s.retire k).irom = s.irom := rfl
@[simp] theorem State.retire_n (k : Nat) : (s.retire k).n = s.n := rfl
@[simp] theorem State.retire_jt (k : Nat) : (s.retire k).jt = s.jt := rfl
@[simp] theorem State.retire_ip (k : Nat) : (s.retire k).ip = k := rfl
@[simp] theorem State.retire_dp (k : Nat) : (s.retire k).dp = s.dp := rfl
@[simp] theorem State.retire_lo (k : Nat) : (s.retire k).lo = s.lo := rfl
@[simp] theorem State.retire_hi (k : Nat) : (s.retire k).hi = s.hi := rfl
@[simp] theorem State.retire_tape (k : Nat) : (s.retire k).tape = s.tape := rfl
@[simp] theorem State.retire_phase (k : Nat) : (s.retire k).phase = if k = s.n then .halted else s.phase := rfl
@[simp] theorem State.retire_faultReason (k : Nat) : (s.retire k).faultReason = s.faultReason := rfl
@[simp] theorem State.retire_cap (k : Nat) : (s.retire k).cap = s.cap := rfl
@[simp] theorem State.retire_rst (k : Nat) : (s.retire k).rst = s.rst := rfl
@[simp] theorem State.retire_loadPort (k : Nat) : (s.retire k).loadPort = s.loadPort := rfl
@[simp] theorem State.retire_answers (k : Nat) : (s.retire k).answers = s.answers := rfl
@[simp] theorem State.retire_events (k : Nat) : (s.retire k).events = s.events := rfl

@[simp] theorem State.raise_irom (r : FaultReason) : (s.raise r).irom = s.irom := rfl
@[simp] theorem State.raise_n (r : FaultReason) : (s.raise r).n = s.n := rfl
@[simp] theorem State.raise_jt (r : FaultReason) : (s.raise r).jt = s.jt := rfl
@[simp] theorem State.raise_ip (r : FaultReason) : (s.raise r).ip = s.ip := rfl
@[simp] theorem State.raise_dp (r : FaultReason) : (s.raise r).dp = s.dp := rfl
@[simp] theorem State.raise_lo (r : FaultReason) : (s.raise r).lo = s.lo := rfl
@[simp] theorem State.raise_hi (r : FaultReason) : (s.raise r).hi = s.hi := rfl
@[simp] theorem State.raise_tape (r : FaultReason) : (s.raise r).tape = s.tape := rfl
@[simp] theorem State.raise_phase (r : FaultReason) : (s.raise r).phase = .fault := rfl
@[simp] theorem State.raise_faultReason (r : FaultReason) : (s.raise r).faultReason = r := rfl
@[simp] theorem State.raise_cap (r : FaultReason) : (s.raise r).cap = s.cap := rfl
@[simp] theorem State.raise_rst (r : FaultReason) : (s.raise r).rst = s.rst := rfl
@[simp] theorem State.raise_loadPort (r : FaultReason) : (s.raise r).loadPort = s.loadPort := rfl
@[simp] theorem State.raise_answers (r : FaultReason) : (s.raise r).answers = s.answers := rfl
@[simp] theorem State.raise_events (r : FaultReason) : (s.raise r).events = s.events := rfl

@[simp] theorem State.setPointer_irom (p : PointerOut) : (s.setPointer p).irom = s.irom := rfl
@[simp] theorem State.setPointer_n (p : PointerOut) : (s.setPointer p).n = s.n := rfl
@[simp] theorem State.setPointer_jt (p : PointerOut) : (s.setPointer p).jt = s.jt := rfl
@[simp] theorem State.setPointer_ip (p : PointerOut) : (s.setPointer p).ip = s.ip := rfl
@[simp] theorem State.setPointer_dp (p : PointerOut) : (s.setPointer p).dp = p.dp := rfl
@[simp] theorem State.setPointer_lo (p : PointerOut) : (s.setPointer p).lo = p.lo := rfl
@[simp] theorem State.setPointer_hi (p : PointerOut) : (s.setPointer p).hi = p.hi := rfl
@[simp] theorem State.setPointer_tape (p : PointerOut) : (s.setPointer p).tape = if p.grow then s.tape.write p.dp 0#8 else s.tape := rfl
@[simp] theorem State.setPointer_phase (p : PointerOut) : (s.setPointer p).phase = s.phase := rfl
@[simp] theorem State.setPointer_faultReason (p : PointerOut) : (s.setPointer p).faultReason = s.faultReason := rfl
@[simp] theorem State.setPointer_cap (p : PointerOut) : (s.setPointer p).cap = s.cap := rfl
@[simp] theorem State.setPointer_rst (p : PointerOut) : (s.setPointer p).rst = s.rst := rfl
@[simp] theorem State.setPointer_loadPort (p : PointerOut) : (s.setPointer p).loadPort = s.loadPort := rfl
@[simp] theorem State.setPointer_answers (p : PointerOut) : (s.setPointer p).answers = s.answers := rfl
@[simp] theorem State.setPointer_events (p : PointerOut) : (s.setPointer p).events = s.events := rfl

@[simp] theorem State.loaded_irom (ws : List Word) (j : List (Option Nat)) : (s.loaded ws j).irom = ws := rfl
@[simp] theorem State.loaded_n (ws : List Word) (j : List (Option Nat)) : (s.loaded ws j).n = ws.length := rfl
@[simp] theorem State.loaded_jt (ws : List Word) (j : List (Option Nat)) : (s.loaded ws j).jt = j := rfl
@[simp] theorem State.loaded_ip (ws : List Word) (j : List (Option Nat)) : (s.loaded ws j).ip = 0 := rfl
@[simp] theorem State.loaded_dp (ws : List Word) (j : List (Option Nat)) : (s.loaded ws j).dp = 0 := rfl
@[simp] theorem State.loaded_lo (ws : List Word) (j : List (Option Nat)) : (s.loaded ws j).lo = 0 := rfl
@[simp] theorem State.loaded_hi (ws : List Word) (j : List (Option Nat)) : (s.loaded ws j).hi = 0 := rfl
@[simp] theorem State.loaded_tape (ws : List Word) (j : List (Option Nat)) : (s.loaded ws j).tape = Tape.blank := rfl
@[simp] theorem State.loaded_phase (ws : List Word) (j : List (Option Nat)) : (s.loaded ws j).phase = if ws.length = 0 then .halted else .run := rfl
@[simp] theorem State.loaded_faultReason (ws : List Word) (j : List (Option Nat)) : (s.loaded ws j).faultReason = .none := rfl
@[simp] theorem State.loaded_cap (ws : List Word) (j : List (Option Nat)) : (s.loaded ws j).cap = s.cap := rfl
@[simp] theorem State.loaded_rst (ws : List Word) (j : List (Option Nat)) : (s.loaded ws j).rst = s.rst := rfl
@[simp] theorem State.loaded_loadPort (ws : List Word) (j : List (Option Nat)) : (s.loaded ws j).loadPort = s.loadPort := rfl
@[simp] theorem State.loaded_answers (ws : List Word) (j : List (Option Nat)) : (s.loaded ws j).answers = s.answers := rfl
@[simp] theorem State.loaded_events (ws : List Word) (j : List (Option Nat)) : (s.loaded ws j).events = s.events := rfl

end Sys2Proof.Machine
end

