-- ==== Sys2Proof/Laws/Ops.lean ====
section
/-! SUPPORT. One lemma per shared operation that says once all it can do; later proofs cite these and unfold nothing. -/

namespace Sys2Proof.Machine

variable {s t : State}

theorem State.hasCell_iff {i : Int} : s.hasCell i = true ↔ s.lo ≤ i ∧ i ≤ s.hi := by
  simp [State.hasCell]

theorem State.iread_eq_some {i : Nat} {w : Word} : s.iread i = some w ↔ i < s.n ∧ s.irom[i]? = some w := by
  unfold State.iread
  split <;> simp_all

/-- Reading the current cell: its value where it has storage. -/
theorem withCell_of_hasCell (h : s.hasCell s.dp = true) (k : Byte → Result) : withCell s k = k s.cell := by
  simp [withCell, State.memRead, h, State.cell]

/-- Reading the current cell: the stop where it has none. -/
theorem withCell_of_not_hasCell (h : s.hasCell s.dp = false) (k : Byte → Result) :
    withCell s k = .fault .cellOutsideExtent := by
  simp [withCell, State.memRead, h]

/-- All a completed `withCell` can be. -/
theorem withCell_next {k : Byte → Result} (h : withCell s k = .next t) :
    s.hasCell s.dp = true ∧ k s.cell = .next t := by
  cases hc : s.hasCell s.dp with
  | true => exact ⟨rfl, by rwa [withCell_of_hasCell hc] at h⟩
  | false => rw [withCell_of_not_hasCell hc] at h; cases h

/-- All a completed `storeCell` can be. -/
theorem storeCell_next {v : Byte} (h : storeCell s v = .next t) :
    s.hasCell s.dp = true ∧ t = (s.memWrite s.dp v).retire (s.ip + 1) := by
  unfold storeCell at h
  split at h
  next hc => cases h; exact ⟨hc, rfl⟩
  next => cases h

theorem storeCell_of_hasCell (h : s.hasCell s.dp = true) (v : Byte) :
    storeCell s v = .next ((s.memWrite s.dp v).retire (s.ip + 1)) := by
  simp [storeCell, h]

/-- All a completed `jump` can be: to one past the entry, or to the next instruction. -/
theorem jump_next {take : Bool} (h : jump s take = .next t) :
    (take = true ∧ ∃ k, s.jread s.ip = some k ∧ t = s.retire (k + 1))
    ∨ (take = false ∧ t = s.retire (s.ip + 1)) := by
  unfold jump State.jumpMux at h
  cases take with
  | false => simp only [Bool.false_eq_true, if_false] at h; cases h; exact .inr ⟨rfl, rfl⟩
  | true =>
    simp only [if_true] at h
    cases hj : s.jread s.ip with
    | none => simp [hj] at h
    | some k => simp [hj] at h; exact .inl ⟨rfl, k, rfl, h.symm⟩

/-- The tape is full exactly where a finite capacity leaves no room for one more cell. -/
theorem tapeFull_eq_true {cap : Option Nat} {lo hi : Int} :
    tapeFull cap lo hi = true ↔ ∃ c : Nat, cap = some c ∧ (c : Int) < hi - lo + 1 + 1 := by
  cases cap <;> simp [tapeFull]

/-- The pointer machine overflows only on a full tape, in a move past the end it is on. -/
theorem pointerMachine_overflow {cap : Option Nat} {m : Move} {dp lo hi : Int}
    (h : (pointerMachine cap m dp lo hi).overflow = true) :
    tapeFull cap lo hi = true ∧ (m = .right → hi < dp + 1) ∧ (m = .left → dp - 1 < lo) := by
  cases m <;> simp only [pointerMachine] at h <;> split at h <;> (try split at h) <;> simp_all

/-- All a move of the data pointer can be: a move inside the extent, a growth by one zero cell, or the overflow. -/
theorem movePointer_cases (m : Move) (s : State) :
    (pointerMachine s.cap.tape m s.dp s.lo s.hi).overflow = true
      ∧ movePointer m s = .next (s.raise .tapeOverflow)
    ∨ (pointerMachine s.cap.tape m s.dp s.lo s.hi).overflow = false
      ∧ movePointer m s
        = .next ((s.setPointer (pointerMachine s.cap.tape m s.dp s.lo s.hi)).retire (s.ip + 1)) := by
  unfold movePointer
  cases h : (pointerMachine s.cap.tape m s.dp s.lo s.hi).overflow <;> simp [h]

/-- An instruction that has ended, in the words statements use. -/
theorem State.retiredAt_retire {k : Nat} (hn : t.n = s.n) (hp : t.phase = s.phase) :
    s.retiredAt (t.retire k) k := by
  refine ⟨rfl, fun h => ?_, fun h => ?_⟩
  · simp [State.retire, hn, h]
  · simp [State.retire, hn, h, hp]

end Sys2Proof.Machine
end

