-- ==== Sys2Proof/Laws/Exec.lean ====
section
/-! SUPPORT. What an instruction and a step can do, said once: the inversion lemmas of `exec` and `step`. -/

namespace Sys2Proof.Machine

variable {s t : State}

/-- All that an instruction which answers a next state can have done, one constructor per effect. -/
inductive Effect (s : State) : Instr → State → Prop
  | inc : s.hasCell s.dp = true → Effect s .inc ((s.memWrite s.dp (alu .inc s.cell)).retire (s.ip + 1))
  | dec : s.hasCell s.dp = true → Effect s .dec ((s.memWrite s.dp (alu .dec s.cell)).retire (s.ip + 1))
  | right : (pointerMachine s.cap.tape .right s.dp s.lo s.hi).overflow = false →
      Effect s .right ((s.setPointer (pointerMachine s.cap.tape .right s.dp s.lo s.hi)).retire (s.ip + 1))
  | rightFull : (pointerMachine s.cap.tape .right s.dp s.lo s.hi).overflow = true →
      Effect s .right (s.raise .tapeOverflow)
  | left : (pointerMachine s.cap.tape .left s.dp s.lo s.hi).overflow = false →
      Effect s .left ((s.setPointer (pointerMachine s.cap.tape .left s.dp s.lo s.hi)).retire (s.ip + 1))
  | leftFull : (pointerMachine s.cap.tape .left s.dp s.lo s.hi).overflow = true →
      Effect s .left (s.raise .tapeOverflow)
  | out : s.hasCell s.dp = true → Effect s .out ((s.outWrite s.cell).retire (s.ip + 1))
  | inpWait : s.answers = [] → Effect s .inp s
  | inpTake (a : Answer) (rest : List Answer) : s.answers = a :: rest → s.hasCell s.dp = true →
      Effect s .inp (((s.inTake a rest).memWrite s.dp a.value).retire (s.ip + 1))
  | jzTaken (k : Nat) : s.hasCell s.dp = true → s.cell = 0#8 → s.jread s.ip = some k → Effect s .jz (s.retire (k + 1))
  | jzFall : s.hasCell s.dp = true → s.cell ≠ 0#8 → Effect s .jz (s.retire (s.ip + 1))
  | jnzTaken (k : Nat) : s.hasCell s.dp = true → s.cell ≠ 0#8 → s.jread s.ip = some k →
      Effect s .jnz (s.retire (k + 1))
  | jnzFall : s.hasCell s.dp = true → s.cell = 0#8 → Effect s .jnz (s.retire (s.ip + 1))

/-- The inversion lemma of `exec`. -/
theorem exec_effect {i : Instr} (h : exec i s = .next t) : Effect s i t := by
  cases i with
  | inc =>
    obtain ⟨hc, h⟩ := withCell_next h
    obtain ⟨-, rfl⟩ := storeCell_next h
    exact .inc hc
  | dec =>
    obtain ⟨hc, h⟩ := withCell_next h
    obtain ⟨-, rfl⟩ := storeCell_next h
    exact .dec hc
  | right =>
    rcases movePointer_cases .right s with ⟨ho, hm⟩ | ⟨ho, hm⟩ <;> (cases hm.symm.trans h)
    · exact .rightFull ho
    · exact .right ho
  | left =>
    rcases movePointer_cases .left s with ⟨ho, hm⟩ | ⟨ho, hm⟩ <;> (cases hm.symm.trans h)
    · exact .leftFull ho
    · exact .left ho
  | out =>
    obtain ⟨hc, h⟩ := withCell_next h
    cases h
    exact .out hc
  | inp =>
    simp only [exec, execIn] at h
    split at h
    next ha => cases h; exact .inpWait ha
    next a rest ha =>
      obtain ⟨hc, rfl⟩ := storeCell_next h
      exact .inpTake a rest ha hc
  | jz =>
    obtain ⟨hc, h⟩ := withCell_next h
    rcases jump_next h with ⟨hz, k, hk, rfl⟩ | ⟨hz, rfl⟩
    · exact .jzTaken k hc (by simpa [zeroDetect] using hz) hk
    · exact .jzFall hc (by simpa [zeroDetect] using hz)
  | jnz =>
    obtain ⟨hc, h⟩ := withCell_next h
    rcases jump_next h with ⟨hz, k, hk, rfl⟩ | ⟨hz, rfl⟩
    · exact .jnzTaken k hc (by simpa [zeroDetect] using hz) hk
    · exact .jnzFall hc (by simpa [zeroDetect] using hz)

/-- All that a step which answers a next state can have been. -/
inductive StepKind (s t : State) : Prop
  | reset : s.rst = true → t = s.resetCore → StepKind s t
  | load (src : List Byte) : s.rst = false → s.phase = .idle → s.loadPort = some src → t = s.acceptLoad src →
      StepKind s t
  | nothing : s.rst = false → (s.phase = .halted ∨ s.phase = .malformed ∨ (s.phase = .idle ∧ s.loadPort = none)) →
      t = s → StepKind s t
  | illegal (w : Word) : s.stepping → s.iread s.ip = some w → decode w = .illegal → t = s.raise .illegalWord →
      StepKind s t
  | instr (w : Word) (i : Instr) : s.stepping → s.iread s.ip = some w → decode w = .op i → Effect s i t →
      StepKind s t

/-- The inversion lemma of `step`. -/
theorem step_kind (h : step s = .next t) : StepKind s t := by
  unfold step cycle at h
  cases hr : s.rst with
  | true => simp only [hr, if_true] at h; cases h; exact .reset hr rfl
  | false =>
    simp only [hr, Bool.false_eq_true, if_false] at h
    cases hp : s.phase with
    | idle =>
      cases hl : s.loadPort with
      | none => simp only [hp, hl] at h; cases h; exact .nothing hr (.inr (.inr ⟨hp, hl⟩)) rfl
      | some src => simp only [hp, hl] at h; cases h; exact .load src hr hp hl rfl
    | run =>
      simp only [hp, instructionStep] at h
      cases hw : s.iread s.ip with
      | none => simp [hw] at h
      | some w =>
        simp only [hw] at h
        cases hd : decode w with
        | illegal => simp only [hd] at h; cases h; exact .illegal w ⟨hp, hr⟩ hw hd rfl
        | op i => simp only [hd] at h; exact .instr w i ⟨hp, hr⟩ hw hd (exec_effect h)
    | halted => simp only [hp] at h; cases h; exact .nothing hr (.inl hp) rfl
    | malformed => simp only [hp] at h; cases h; exact .nothing hr (.inr (.inl hp)) rfl
    | fault => simp [hp] at h
    | reserved5 => simp [hp] at h
    | reserved6 => simp [hp] at h
    | reserved7 => simp [hp] at h

end Sys2Proof.Machine
end

