-- ==== Sys2Proof/Laws/Load.lean ====
section
/-! SUPPORT. The jump-table builder's loop: the invariant it keeps, and what its stack counts. -/

namespace Sys2Proof.Machine

/-- How many brackets are open after the first `k` words: `[` less `]`. -/
def depth (ws : List Word) (k : Nat) : Int := ((ws.take k).count 0x5B#8 : Int) - (ws.take k).count 0x5D#8

theorem depth_succ {ws : List Word} {k : Nat} {w : Word} (h : ws[k]? = some w) :
    depth ws (k + 1) = depth ws k + (if w = 0x5B#8 then 1 else if w = 0x5D#8 then -1 else 0) := by
  unfold depth
  rw [List.take_add_one, h]
  simp only [Option.toList, List.count_append, List.count_singleton]
  by_cases h1 : w = 0x5B#8
  · subst h1; simp; omega
  · by_cases h2 : w = 0x5D#8
    · subst h2; simp; omega
    · simp [h1, h2]

@[simp] theorem depth_zero (ws : List Word) : depth ws 0 = 0 := by simp [depth]

theorem entry_recordPair {jt : List (Option Nat)} {j i : Nat} (hji : j < i) (hi : i < jt.length) (k : Nat) :
    entry (recordPair jt j i) k = if k = i then some j else if k = j then some i else entry jt k := by
  unfold entry recordPair
  by_cases h1 : k = i
  · subst h1; simp [hi]
  · rw [List.getElem?_set_ne (Ne.symm h1)]
    by_cases h2 : k = j
    · subst h2; simp [h1, show k < jt.length by omega]
    · rw [List.getElem?_set_ne (Ne.symm h2)]; simp [h1, h2]

@[simp] theorem length_recordPair (jt : List (Option Nat)) (j i : Nat) :
    (recordPair jt j i).length = jt.length := by simp [recordPair]

/-- A matched pair together with the depths that make its words a balanced, unbroken block. -/
structure BlockPair (ws : List Word) (jt : List (Option Nat)) (o c : Nat) : Prop where
  pair : MatchedPair ws jt o c
  ends : depth ws (c + 1) = depth ws o
  within : ∀ k, o < k → k ≤ c → depth ws o + 1 ≤ depth ws k

/-- The open brackets on the stack, top first, read before index `i`: each with no entry yet and nothing closed below it. -/
def StackOk (ws : List Word) (jt : List (Option Nat)) : List Nat → Nat → Prop
  | [], _ => True
  | p :: st, i =>
    (p < i ∧ ws[p]? = some 0x5B#8 ∧ entry jt p = none ∧ depth ws p = st.length
      ∧ ∀ k, p < k → k ≤ i → (st.length : Int) + 1 ≤ depth ws k)
    ∧ StackOk ws jt st p

/-- What the builder's loop keeps at index `i`. -/
structure LoopInv (ws : List Word) (i : Nat) (stack : List Nat) (jt : List (Option Nat)) : Prop where
  length_eq : jt.length = ws.length
  depth_eq : depth ws i = stack.length
  stack_ok : StackOk ws jt stack i
  opened : ∀ o, o < i → ws[o]? = some 0x5B#8 → o ∈ stack ∨ ∃ c, c < i ∧ BlockPair ws jt o c
  closed : ∀ c, c < i → ws[c]? = some 0x5D#8 → ∃ o, BlockPair ws jt o c
  only : ∀ j, entry jt j ≠ none → j < i ∧ (ws[j]? = some 0x5B#8 ∨ ws[j]? = some 0x5D#8)

/-- Two tables that agree below `i` agree on a stack of indices below `i`. -/
theorem StackOk.congr {ws : List Word} {jt jt' : List (Option Nat)} {stack : List Nat} {i : Nat}
    (hjt : ∀ p, p < i → entry jt' p = entry jt p) (h : StackOk ws jt stack i) : StackOk ws jt' stack i := by
  induction stack generalizing i with
  | nil => trivial
  | cons p st ih =>
    obtain ⟨⟨hp, hw, he, hd, hk⟩, hst⟩ := h
    exact ⟨⟨hp, hw, by rw [hjt p hp, he], hd, hk⟩, ih (fun q hq => hjt q (by omega)) hst⟩

/-- One more word that is not a `]` leaves the stack good, as long as the depth does not fall. -/
theorem StackOk.succ {ws : List Word} {jt : List (Option Nat)} {stack : List Nat} {i : Nat}
    (hd : (stack.length : Int) ≤ depth ws (i + 1)) (h : StackOk ws jt stack i) : StackOk ws jt stack (i + 1) := by
  cases stack with
  | nil => trivial
  | cons p st =>
    obtain ⟨⟨hp, hw, he, hdp, hk⟩, hst⟩ := h
    refine ⟨⟨by omega, hw, he, hdp, fun k h1 h2 => ?_⟩, hst⟩
    by_cases hki : k ≤ i
    · exact hk k h1 hki
    · obtain rfl : k = i + 1 := by omega
      simpa using hd

theorem LoopInv.push {ws : List Word} {i : Nat} {stack : List Nat} {jt : List (Option Nat)}
    (h : LoopInv ws i stack jt) (hw : ws[i]? = some 0x5B#8) : LoopInv ws (i + 1) (i :: stack) jt := by
  have hd : depth ws (i + 1) = depth ws i + 1 := by simpa using depth_succ hw
  have hi : entry jt i = none := by
    by_contra hne
    exact absurd (h.only i hne).1 (by omega)
  refine ⟨h.length_eq, ?_, ⟨⟨by omega, hw, hi, h.depth_eq, fun k h1 h2 => ?_⟩, h.stack_ok⟩, ?_, ?_, ?_⟩
  · rw [hd, h.depth_eq]; simp
  · obtain rfl : k = i + 1 := by omega
    rw [hd, h.depth_eq]
  · intro o ho hwo
    by_cases hoi : o = i
    · subst hoi; simp
    · rcases h.opened o (by omega) hwo with hs | ⟨c, hc, hp⟩
      · exact .inl (by simp [hs])
      · exact .inr ⟨c, by omega, hp⟩
  · intro c hc hwc
    by_cases hci : c = i
    · subst hci; rw [hw] at hwc; simp at hwc
    · exact h.closed c (by omega) hwc
  · intro j hj
    exact ⟨by have := (h.only j hj).1; omega, (h.only j hj).2⟩

theorem LoopInv.skip {ws : List Word} {i : Nat} {stack : List Nat} {jt : List (Option Nat)} {w : Word}
    (h : LoopInv ws i stack jt) (hw : ws[i]? = some w) (h1 : w ≠ 0x5B#8) (h2 : w ≠ 0x5D#8) :
    LoopInv ws (i + 1) stack jt := by
  have hd : depth ws (i + 1) = depth ws i := by simpa [h1, h2] using depth_succ hw
  refine ⟨h.length_eq, by rw [hd, h.depth_eq], h.stack_ok.succ (by rw [hd, h.depth_eq]), ?_, ?_, ?_⟩
  · intro o ho hwo
    by_cases hoi : o = i
    · subst hoi; rw [hw] at hwo; simp [h1] at hwo
    · rcases h.opened o (by omega) hwo with hs | ⟨c, hc, hp⟩
      · exact .inl hs
      · exact .inr ⟨c, by omega, hp⟩
  · intro c hc hwc
    by_cases hci : c = i
    · subst hci; rw [hw] at hwc; simp [h2] at hwc
    · exact h.closed c (by omega) hwc
  · intro j hj
    exact ⟨by have := (h.only j hj).1; omega, (h.only j hj).2⟩

theorem LoopInv.pop {ws : List Word} {i j : Nat} {stack : List Nat} {jt : List (Option Nat)}
    (h : LoopInv ws i (j :: stack) jt) (hw : ws[i]? = some 0x5D#8) :
    LoopInv ws (i + 1) stack (recordPair jt j i) := by
  have hd : depth ws (i + 1) = depth ws i - 1 := by
    simpa [Int.sub_eq_add_neg] using depth_succ hw
  have hil : i < jt.length := by
    rw [h.length_eq]; exact (List.getElem?_eq_some_iff.1 hw).1
  obtain ⟨⟨hji, hwj, hej, hdj, hkj⟩, hst⟩ := h.stack_ok
  have he := entry_recordPair hji hil
  have hin : ∀ k, entry jt k ≠ none → k ≠ i ∧ k ≠ j := fun k hk =>
    ⟨by have := (h.only k hk).1; omega, fun hkj => hk (hkj ▸ hej)⟩
  have hkeep : ∀ o c, BlockPair ws jt o c → BlockPair ws (recordPair jt j i) o c := by
    intro o c hp
    obtain ⟨ho1, ho2⟩ := hin o (by rw [hp.pair.forth]; simp)
    obtain ⟨hc1, hc2⟩ := hin c (by rw [hp.pair.back]; simp)
    refine ⟨⟨hp.pair.before, hp.pair.opens, hp.pair.closes, ?_, ?_⟩, hp.ends, hp.within⟩
    · rw [he]; simp [ho1, ho2, hp.pair.forth]
    · rw [he]; simp [hc1, hc2, hp.pair.back]
  have hdi : depth ws i = stack.length + 1 := by simpa using h.depth_eq
  have hnew : BlockPair ws (recordPair jt j i) j i := by
    refine ⟨⟨hji, hwj, hw, ?_, ?_⟩, ?_, fun k h1 h2 => ?_⟩
    · rw [he]; simp [show j ≠ i by omega]
    · rw [he]; simp
    · rw [hd, hdi, hdj]; omega
    · have := hkj k h1 h2; omega
  refine ⟨by simp [h.length_eq], by rw [hd, hdi]; omega, ?_, ?_, ?_, ?_⟩
  · cases stack with
    | nil => trivial
    | cons p st =>
      have hst' : StackOk ws (recordPair jt j i) (p :: st) j :=
        hst.congr fun q hq => by rw [he]; simp [show q ≠ i by omega, show q ≠ j by omega]
      obtain ⟨⟨hp, hwp, hep, hdp, hkp⟩, hst2⟩ := hst'
      refine ⟨⟨by omega, hwp, hep, hdp, fun k h1 h2 => ?_⟩, hst2⟩
      simp only [List.length_cons] at hkj hdi
      by_cases hk1 : k ≤ j
      · exact hkp k h1 hk1
      · by_cases hk2 : k ≤ i
        · have := hkj k (by omega) hk2; push_cast at this; omega
        · obtain rfl : k = i + 1 := by omega
          push_cast at hdi; omega
  · intro o ho hwo
    by_cases hoi : o = i
    · subst hoi; rw [hw] at hwo; simp at hwo
    · rcases h.opened o (by omega) hwo with hs | ⟨c, hc, hp⟩
      · rcases List.mem_cons.1 hs with rfl | hs
        · exact .inr ⟨i, by omega, hnew⟩
        · exact .inl hs
      · exact .inr ⟨c, by omega, hkeep o c hp⟩
  · intro c hc hwc
    by_cases hci : c = i
    · subst hci; exact ⟨j, hnew⟩
    · obtain ⟨o, hp⟩ := h.closed c (by omega) hwc
      exact ⟨o, hkeep o c hp⟩
  · intro k hk
    rw [he] at hk
    by_cases h1 : k = i
    · subst h1; exact ⟨by omega, .inr hw⟩
    · by_cases h2 : k = j
      · subst h2; exact ⟨by omega, .inl hwj⟩
      · simp only [h1, h2, if_false] at hk
        exact ⟨by have := (h.only k hk).1; omega, (h.only k hk).2⟩

/-- The loop, run to its end from a state that has the invariant. -/
theorem buildFrom_loopInv (ws : List Word) :
    ∀ (rest : List Word) (i : Nat) (stack : List Nat) (jt out : List (Option Nat)), ws.drop i = rest → i ≤ ws.length →
      LoopInv ws i stack jt → buildFrom rest i stack jt = some out → LoopInv ws ws.length [] out := by
  intro rest
  induction rest with
  | nil =>
    intro i stack jt out hr hi h hb
    have hil : i = ws.length := by
      have := List.drop_eq_nil_iff.1 hr; omega
    unfold buildFrom at hb
    split at hb
    next hs => cases hb; subst hs hil; exact h
    next => cases hb
  | cons w rest ih =>
    intro i stack jt out hr hi h hb
    have hw : ws[i]? = some w := by
      have : (ws.drop i)[0]? = some w := by rw [hr]; rfl
      simpa using this
    have hil : i < ws.length := (List.getElem?_eq_some_iff.1 hw).1
    have hr' : ws.drop (i + 1) = rest := by
      have := congrArg (List.drop 1) hr
      simpa [List.drop_drop] using this
    unfold buildFrom at hb
    split at hb
    next h1 => subst h1; exact ih _ _ _ _ hr' hil (h.push hw) hb
    next h1 =>
      split at hb
      next h2 =>
        subst h2
        cases stack with
        | nil => simp at hb
        | cons j stack => exact ih _ _ _ _ hr' hil (h.pop hw) hb
      next h2 => exact ih _ _ _ _ hr' hil (h.skip hw h1 h2) hb

/-- What the builder's table holds when it accepts a stream. -/
theorem buildJumpTable_loopInv {ws : List Word} {jt : List (Option Nat)} (h : buildJumpTable ws = some jt) :
    LoopInv ws ws.length [] jt := by
  refine buildFrom_loopInv ws ws 0 [] _ jt rfl (Nat.zero_le _) ⟨by simp, by simp, trivial, ?_, ?_, ?_⟩ h
  · intro o ho; omega
  · intro c hc; omega
  · intro j hj
    refine absurd ?_ hj
    unfold entry
    cases hx : (List.replicate ws.length (none : Option Nat))[j]? with
    | none => rfl
    | some v =>
      obtain ⟨_, hv⟩ := List.getElem?_eq_some_iff.1 hx
      simp at hv; simp [← hv]

/-- The loop refuses exactly when the stack runs empty at a `]`, or is not empty at the end. -/
theorem buildFrom_eq_none (ws : List Word) : ∀ (i : Nat) (stack : List Nat) (jt : List (Option Nat)),
    buildFrom ws i stack jt = none ↔
      (∃ k, stack.length + (ws.take k).count 0x5B#8 < (ws.take k).count 0x5D#8)
      ∨ stack.length + ws.count 0x5B#8 ≠ ws.count 0x5D#8 := by
  induction ws with
  | nil => intro i stack jt; cases stack <;> simp [buildFrom]
  | cons w ws ih =>
    intro i stack jt
    have hsplit : ∀ P : List Word → Prop, (∃ k, P ((w :: ws).take k)) ↔ P [] ∨ ∃ k, P (w :: ws.take k) := by
      intro P
      constructor
      · rintro ⟨k, hk⟩
        cases k with
        | zero => exact .inl hk
        | succ k => exact .inr ⟨k, hk⟩
      · rintro (h | ⟨k, hk⟩)
        · exact ⟨0, h⟩
        · exact ⟨k + 1, hk⟩
    rw [hsplit (fun l => stack.length + l.count 0x5B#8 < l.count 0x5D#8)]
    unfold buildFrom
    by_cases h1 : w = 0x5B#8
    · subst h1
      simp [ih, Nat.add_assoc, Nat.add_comm 1]
    · by_cases h2 : w = 0x5D#8
      · subst h2
        cases stack with
        | nil => simp; exact .inl ⟨0, by simp⟩
        | cons j stack =>
          simp [ih]
          constructor
          · rintro (⟨k, hk⟩ | h)
            · exact .inl ⟨k, by omega⟩
            · exact .inr (by omega)
          · rintro (⟨k, hk⟩ | h)
            · exact .inl ⟨k, by omega⟩
            · exact .inr (by omega)
      · simp [h1, h2, ih]

/-- A sanitized length is over the capacity exactly where there is one and it is smaller. -/
theorem overProgCap_eq_true {cap : Option Nat} {len : Nat} :
    overProgCap cap len = true ↔ ∃ c : Nat, cap = some c ∧ c < len := by
  cases cap <;> simp [overProgCap]

/-- All that a load can do: refuse a program over the capacity, refuse its brackets, or store it with its table. -/
theorem State.load_cases (s : State) (src : List Byte) :
    (overProgCap s.cap.prog (sanitize src).length = true ∧ s.load src = s.raise .progOverflow)
    ∨ (overProgCap s.cap.prog (sanitize src).length = false ∧ buildJumpTable (sanitize src) = none
      ∧ s.load src = s.malform)
    ∨ ∃ jt, overProgCap s.cap.prog (sanitize src).length = false ∧ buildJumpTable (sanitize src) = some jt
      ∧ s.load src = s.loaded (sanitize src) jt := by
  unfold State.load
  cases overProgCap s.cap.prog (sanitize src).length with
  | true => exact .inl ⟨rfl, rfl⟩
  | false =>
    cases h : buildJumpTable (sanitize src) with
    | none => exact .inr (.inl ⟨rfl, rfl, rfl⟩)
    | some jt => exact .inr (.inr ⟨jt, rfl, rfl, rfl⟩)

end Sys2Proof.Machine
end

