-- ==== Sys2Proof/Laws/PerInstr.lean ====
section
/-! SUPPORT. The families of statements made per instruction (LAWS.json): one lemma per constructor of `Instr`. -/

namespace Sys2Proof.Laws.RoundTrip

/-- An instruction is well-formed, its word decodes to it, and the sanitizer keeps that word (R63, R65, R80). -/
def Statement (i : Instr) : Prop :=
  i.wf = true ∧ decode (encode i) = .op i ∧ Sys2Proof.Machine.sanitize [encode i] = [encode i]

theorem inc : Statement .inc := ⟨rfl, rfl, rfl⟩
theorem dec : Statement .dec := ⟨rfl, rfl, rfl⟩
theorem right : Statement .right := ⟨rfl, rfl, rfl⟩
theorem left : Statement .left := ⟨rfl, rfl, rfl⟩
theorem out : Statement .out := ⟨rfl, rfl, rfl⟩
theorem inp : Statement .inp := ⟨rfl, rfl, rfl⟩
theorem jz : Statement .jz := ⟨rfl, rfl, rfl⟩
theorem jnz : Statement .jnz := ⟨rfl, rfl, rfl⟩

end Sys2Proof.Laws.RoundTrip
end

