-- ==== Sys2Proof/Laws/Step.lean ====
section
/-! SUPPORT. Runs of steps: one step at a time, and an induction packaged once. -/

namespace Sys2Proof.Machine

/-- A run of the core goes on from the next state. -/
theorem run_succ (M : Host.Core) (k : Nat) (s t : M.State) (h : M.step s = .next t) :
    M.run (k + 1) s = M.run k t := by
  simp only [Host.Core.run, h]

/-- What holds after reset under every pair of capacities, and is kept by every step and by every move of the host, holds
of every reachable state. -/
theorem reachable_induction {P : State → Prop} (h0 : ∀ cap : Capacities, P { State.reset with cap := cap })
    (h1 : ∀ s t : State, P s → step s = .next t → P t) (h2 : ∀ (s : State) (m : HostMove), P s → P (s.hostMove m))
    {s : State} (h : Reachable s) : P s := by
  induction h with
  | reset cap => exact h0 cap
  | step _ e ih => exact h1 _ _ ih e
  | host m _ ih => exact h2 _ m ih

end Sys2Proof.Machine
end

