-- ==== Sys2Proof/Tests/Slice0.lean ====
section
/-! SUPPORT. Tests of single steps on values the spec writes out (spec/95_test_vectors.md and the rules named), and the
witnesses of the obligations' hypotheses. -/

namespace Sys2Proof.Tests

open Sys2Proof Sys2Proof.Machine

/-- A running core: the program `ws` with the table `jt`, the pointers and the tape as a load leaves them. -/
def prog (ws : List Word) (jt : List (Option Nat)) : State :=
  { State.reset with irom := ws, n := ws.length, jt := jt, phase := .run }

/-- `s` with the current cell holding `v`. -/
def cellIs (s : State) (v : Byte) : State := s.memWrite s.dp v

/-- A core waiting in `IDLE` with `src` on its `load` port and `PROG_CAP` as given. -/
def waiting (src : List Byte) (cap : Option Nat) : State :=
  { State.reset with loadPort := some src, cap := { prog := cap, tape := none } }

/-- The state after one step, where there is one. -/
def after (s : State) : Option State :=
  match step s with
  | .next t => some t
  | .fault _ => none
  | .refused _ => none

/-! ### Well-formedness: the bracket check refuses each kind of ill-formed program (R12, R123) -/

theorem test_unmatched_close_refused : wellFormed [.inc, .jnz] = false := by decide
theorem test_unmatched_open_refused : wellFormed [.jz, .jz, .jnz] = false := by decide
theorem test_close_before_open_refused : wellFormed [.jnz, .jz] = false := by decide
theorem test_nested_accepted : wellFormed [.jz, .jz, .jnz, .jz, .jnz, .jnz] = true := by decide
/-- R63: no operand, so no instruction is ill-formed. -/
theorem test_no_instruction_is_ill_formed : ∀ i : Instr, i.wf = true := by intro i; cases i <;> rfl

/-! ### Encodings, each word written out from R62 and the table's `encoding` strings -/

theorem test_decode_inc : decode 0b00101011#8 = .op .inc := by decide
theorem test_decode_dec : decode 0b00101101#8 = .op .dec := by decide
theorem test_decode_right : decode 0b00111110#8 = .op .right := by decide
theorem test_decode_left : decode 0b00111100#8 = .op .left := by decide
theorem test_decode_out : decode 0b00101110#8 = .op .out := by decide
theorem test_decode_in : decode 0b00101100#8 = .op .inp := by decide
theorem test_decode_jz : decode 0b01011011#8 = .op .jz := by decide
theorem test_decode_jnz : decode 0b01011101#8 = .op .jnz := by decide
/-- 2.1: the neighbours of the legal codes are illegal. -/
theorem test_decode_illegal :
    ∀ w ∈ [0x00#8, 0x20#8, 0x2A#8, 0x2F#8, 0x3D#8, 0x5C#8, 0x5E#8, 0x41#8, 0x80#8, 0xFF#8], decode w = .illegal := by
  decide
/-- R62: decimal 91 is `[`. -/
theorem test_table_word : decodeTableWord 8 91 = some .jz := by decide
theorem test_disassemble : disassemble 0x3E#8 = some '>' ∧ disassemble 0x5C#8 = none := by decide

/-! ### Sanitizer and builder (2.2, 2.3) -/

/-- `a+b-c`, and a backslash and the two bytes of é before `+`. -/
theorem test_sanitize :
    sanitize [0x61#8, 0x2B#8, 0x62#8, 0x2D#8, 0x63#8] = [0x2B#8, 0x2D#8]
    ∧ sanitize [0x5C#8, 0xC3#8, 0xA9#8, 0x2B#8] = [0x2B#8] := by decide
/-- `[[][]]` (W2). -/
theorem test_build_nested : buildJumpTable [0x5B#8, 0x5B#8, 0x5D#8, 0x5B#8, 0x5D#8, 0x5D#8]
    = some [some 5, some 2, some 1, some 4, some 3, some 0] := by decide
/-- `+[>[-]<]`. -/
theorem test_build_mixed : buildJumpTable [0x2B#8, 0x5B#8, 0x3E#8, 0x5B#8, 0x2D#8, 0x5D#8, 0x3C#8, 0x5D#8]
    = some [none, some 7, none, some 5, none, some 3, none, some 1] := by decide
/-- `]`, `[`, `][`, `[[]`, `[]]`. -/
theorem test_build_malformed : ∀ ws ∈ [[0x5D#8], [0x5B#8], [0x5D#8, 0x5B#8], [0x5B#8, 0x5B#8, 0x5D#8],
    [0x5B#8, 0x5D#8, 0x5D#8]], buildJumpTable ws = none := by decide

/-! ### Load outcomes (2.8) and reset -/

/-- `+` with no capacity: `RUN`; `[`: `MALFORMED`; nothing: `HALTED`. -/
theorem test_load_phases :
    (after (waiting [0x2B#8] none)).map (·.phase) = some .run
    ∧ (after (waiting [0x5B#8] none)).map (·.phase) = some .malformed
    ∧ (after (waiting [] none)).map (·.phase) = some .halted := by decide
/-- `[[[` with `PROG_CAP = 2`: the capacity is checked before the builder. -/
theorem test_load_capacity_first :
    (after (waiting [0x5B#8, 0x5B#8, 0x5B#8] (some 2))).map State.status = some (0b100#3, 0b10#2) := by decide
/-- `x y z` with `PROG_CAP = 0`: sanitized length 0 is not above 0. -/
theorem test_load_nothing_fits_zero :
    (after (waiting [0x78#8, 0x20#8, 0x79#8, 0x20#8, 0x7A#8] (some 0))).map (·.phase) = some .halted := by decide
theorem test_reset_from_run : after { cellIs (prog [0x2B#8] [none]) 7#8 with rst := true } = some State.reset := by decide

/-! ### Instructions, one step each (2.4 to 2.7) -/

theorem test_inc_wraps : (after (cellIs (prog [0x2B#8, 0x2B#8] [none, none]) 255#8)).map
    (fun t => (t.cell, t.ip, t.phase)) = some (0#8, 1, .run) := by decide
theorem test_inc_127 : (after (cellIs (prog [0x2B#8] [none]) 127#8)).map
    (fun t => (t.cell, t.ip, t.phase)) = some (128#8, 1, .halted) := by decide
theorem test_dec_wraps : (after (prog [0x2D#8] [none])).map (·.cell) = some 255#8 := by decide
theorem test_dec_128 : (after (cellIs (prog [0x2D#8] [none]) 128#8)).map (·.cell) = some 127#8 := by decide
theorem test_right_grows : (after (cellIs (prog [0x3E#8] [none]) 9#8)).map
    (fun t => (t.dp, t.lo, t.hi, t.cells)) = some (1, 0, 1, [9#8, 0#8]) := by decide
/-- `TAPE_CAP = 1`: nothing but the status changes. -/
theorem test_right_overflow : after { prog [0x3E#8] [none] with cap := ⟨none, some 1⟩ }
    = some { prog [0x3E#8] [none] with cap := ⟨none, some 1⟩, phase := .fault, faultReason := .tapeOverflow } := by decide
theorem test_left_grows : (after (cellIs (prog [0x3C#8] [none]) 9#8)).map
    (fun t => (t.dp, t.lo, t.hi, t.cells)) = some (-1, -1, 0, [0#8, 9#8]) := by decide
theorem test_left_inside : (after { prog [0x3C#8] [none] with dp := 1, hi := 1 }).map
    (fun t => (t.dp, t.lo, t.hi)) = some (0, 0, 1) := by decide
theorem test_out_65 : (after (cellIs (prog [0x2E#8] [none]) 65#8)).map
    (fun t => (t.output, t.cell, t.ip)) = some ([65#8], 65#8, 1) := by decide
/-- The NUL byte is not suppressed. -/
theorem test_out_nul : (after (prog [0x2E#8] [none])).map (·.output) = some [0#8] := by decide
theorem test_in_byte : (after { cellIs (prog [0x2C#8] [none]) 7#8 with answers := [.byte 65#8, .eof] }).map
    (fun t => (t.cell, t.answers, t.ip)) = some (65#8, [.eof], 1) := by decide
theorem test_in_eof : (after { cellIs (prog [0x2C#8] [none]) 7#8 with answers := [.eof] }).map
    (fun t => (t.cell, t.answersTaken)) = some (0#8, [.eof]) := by decide
/-- `[-]`, 0, cell 0: 3, which is `N`. -/
theorem test_jz_skips : (after (prog [0x5B#8, 0x2D#8, 0x5D#8] [some 2, none, some 0])).map
    (fun t => (t.ip, t.phase)) = some (3, .halted) := by decide
theorem test_jz_falls : (after (cellIs (prog [0x5B#8, 0x2D#8, 0x5D#8] [some 2, none, some 0]) 255#8)).map
    (·.ip) = some 1 := by decide
/-- `[-]`, 2, cell 1: 1. -/
theorem test_jnz_repeats : (after { cellIs (prog [0x5B#8, 0x2D#8, 0x5D#8] [some 2, none, some 0]) 1#8 with ip := 2 }).map
    (·.ip) = some 1 := by decide
theorem test_jnz_falls : (after { prog [0x5B#8, 0x2D#8, 0x5D#8] [some 2, none, some 0] with ip := 2 }).map
    (fun t => (t.ip, t.phase)) = some (3, .halted) := by decide
/-- 2.1: an illegal word faults and `IP` stays. -/
theorem test_illegal_word : (after (prog [0x41#8] [none])).map (fun t => (t.status, t.ip)) = some ((0b100#3, 0b01#2), 0) := by
  decide
/-- Each row's word, placed as the first instruction after reset, is run (for `,` the host has not answered yet). -/
theorem test_first_instruction : ∀ w ∈ [0x2B, 0x2D, 0x3E, 0x3C, 0x2E, 0x2C, 0x5B, 0x5D],
    (after (State.reset.withFetchWord 8 w)).map (·.phase) = some (if w = 0x2C then .run else .halted) := by decide
/-- R126: `HALTED` gives 0. -/
theorem test_exit_status : (after (prog [0x2B#8] [none])).bind State.exitStatus = some 0 := by decide

/-! ### Witnesses: for each obligation with hypotheses, a concrete state and operands that meet them, clause by clause -/

/-- The table of `[[][]]`. -/
def nestedWords : List Word := [0x5B#8, 0x5B#8, 0x5D#8, 0x5B#8, 0x5D#8, 0x5D#8]
def nestedTable : List (Option Nat) := [some 5, some 2, some 1, some 4, some 3, some 0]

theorem witness_SanitizerIsIdempotent : ∀ b ∈ [0x41#8], ∀ i, b ≠ encode i := by
  intro b hb i; simp at hb; subst hb; cases i <;> decide

theorem witness_BuilderPairsEveryBracket : buildJumpTable nestedWords = some nestedTable := by decide

theorem nestedPair_0_5 : MatchedPair nestedWords nestedTable 0 5 := ⟨by decide, rfl, rfl, rfl, rfl⟩
theorem nestedPair_1_2 : MatchedPair nestedWords nestedTable 1 2 := ⟨by decide, rfl, rfl, rfl, rfl⟩
theorem nestedPair_3_4 : MatchedPair nestedWords nestedTable 3 4 := ⟨by decide, rfl, rfl, rfl, rfl⟩

/-- One pair inside the other, and two disjoint pairs. -/
theorem witness_BuilderPairsNestProperly :
    (MatchedPair nestedWords nestedTable 0 5 ∧ MatchedPair nestedWords nestedTable 1 2 ∧ 0 < 1)
    ∧ (MatchedPair nestedWords nestedTable 1 2 ∧ MatchedPair nestedWords nestedTable 3 4 ∧ 1 < 3) :=
  ⟨⟨nestedPair_0_5, nestedPair_1_2, by decide⟩, ⟨nestedPair_1_2, nestedPair_3_4, by decide⟩⟩

/-- A `[` with an index strictly inside, and its `]`. -/
theorem witness_JumpTableAgreesWithRescan :
    (nestedWords[0]? = some 0x5B#8 ∧ entry nestedTable 0 = some 5 ∧ 0 < 1 ∧ 1 < 5)
    ∧ nestedWords[5]? = some 0x5D#8 ∧ entry nestedTable 5 = some 0 := by decide

/-- A `,` that waits, with its request raised, and the reset that then comes. -/
theorem witness_ResetDiscardsAllState : (prog [0x2C#8] [none]).blocked = true
    ∧ ((prog [0x2C#8] [none]).hostMove .raiseRst).rst = true := ⟨rfl, rfl⟩

/-- A reset that has a source and an answer beside it, and a step that is no reset. -/
theorem witness_ResetTakesEventAndKeepsHostSide :
    ({ waiting [0x2B#8] none with rst := true, answers := [.eof] } : State).rst = true
    ∧ (after (waiting [0x2B#8] none)).isSome ∧ (waiting [0x2B#8] none).rst = false := by decide

/-- A load whose source is refused, one whose source is accepted, and each step that takes no source. -/
theorem witness_AcceptedSourceIsLoadedOnce :
    (∀ src ∈ [[0x5B#8], [0x2B#8]], (waiting src none).phase = .idle ∧ (waiting src none).rst = false
      ∧ (waiting src none).loadPort = some src)
    ∧ ({ waiting [0x2B#8] none with rst := true } : State).rst = true
    ∧ ({ prog [0x2B#8] [none] with loadPort := some [] } : State).phase ≠ .idle
    ∧ State.reset.loadPort = none
    ∧ (after { waiting [0x2B#8] none with rst := true }).isSome
    ∧ (after { prog [0x2B#8] [none] with loadPort := some [] }).isSome ∧ (after State.reset).isSome := by decide

/-- The three outcomes of a load: over the capacity, malformed, loaded (with nothing and with something). -/
theorem witness_LoadStepOutcomes :
    ((waiting [0x2B#8] (some 0)).phase = .idle ∧ (waiting [0x2B#8] (some 0)).rst = false
      ∧ (waiting [0x2B#8] (some 0)).cap.prog = some 0 ∧ 0 < (sanitize [0x2B#8]).length)
    ∧ ((waiting [0x5B#8] (some 1)).cap.prog = some 1 ∧ (sanitize [0x5B#8]).length ≤ 1
      ∧ buildJumpTable (sanitize [0x5B#8]) = none)
    ∧ ((waiting [0x2B#8] (some 1)).cap.prog = some 1 ∧ (sanitize [0x2B#8]).length ≤ 1
      ∧ buildJumpTable (sanitize [0x2B#8]) = some [none])
    ∧ buildJumpTable (sanitize [0x41#8]) = some [] ∧ sanitize [0x41#8] = [] := by decide

/-- One word above the capacity, and exactly at it. -/
theorem witness_ProgramCapacityOverflow :
    ((waiting [] (some 2)).cap.prog = some 2 ∧ 2 < (sanitize [0x2B#8, 0x2B#8, 0x2B#8]).length)
    ∧ (waiting [] (some 3)).phase = .idle ∧ (waiting [] (some 3)).cap.prog = some 3
      ∧ (sanitize [0x2B#8, 0x2B#8, 0x2B#8]).length ≤ 3 := by decide

theorem stepping_prog (ws : List Word) (jt : List (Option Nat)) : (prog ws jt).stepping := ⟨rfl, rfl⟩

theorem witness_StepRunsDecodedInstruction : (prog [0x2B#8] [none]).stepping
    ∧ (prog [0x2B#8] [none]).iread (prog [0x2B#8] [none]).ip = some 0x2B#8 ∧ decode 0x2B#8 = .op .inc :=
  ⟨stepping_prog _ _, rfl, rfl⟩

theorem witness_IllegalWordRaisesFault : (prog [0x41#8] [none]).stepping
    ∧ (prog [0x41#8] [none]).iread (prog [0x41#8] [none]).ip = some 0x41#8 ∧ (∀ i, (0x41#8 : Word) ≠ encode i)
    ∧ (0x2B#8 : Word) ∈ sanitize [0x2B#8] :=
  ⟨stepping_prog _ _, rfl, fun i => by cases i <;> decide, by decide⟩

/-- A step that enters `FAULT` from a load, and one from a run. -/
theorem witness_FaultIsPrecise :
    ((after (waiting [0x2B#8] (some 0))).map (·.phase) = some .fault ∧ (waiting [0x2B#8] (some 0)).phase ≠ .fault)
    ∧ (after (prog [0x41#8] [none])).map (·.phase) = some .fault ∧ (prog [0x41#8] [none]).phase ≠ .fault := by decide

/-- A state in `PHASE = p` with nothing asked of it. -/
def inPhase (p : Phase) : State := { State.reset with phase := p }

theorem witness_FaultPhaseStopsTheModel : (inPhase .fault).phase = .fault ∧ (inPhase .fault).rst = false := ⟨rfl, rfl⟩

theorem witness_ReservedPhaseIsRefused : (inPhase .reserved5).rst = false ∧ (inPhase .reserved5).phase = .reserved5
    ∧ (inPhase .reserved6).phase = .reserved6 ∧ (inPhase .reserved7).phase = .reserved7 := ⟨rfl, rfl, rfl, rfl⟩

/-- A change of `PHASE` by reset, by a load and by an instruction. -/
theorem witness_PhaseChangesOnlyAsListed :
    (after { inPhase .halted with rst := true }).map (·.phase) = some .idle
    ∧ (after (waiting [0x2B#8] none)).map (·.phase) = some .run
    ∧ (after (prog [0x2B#8] [none])).map (·.phase) = some .halted := by decide

theorem witness_IdleAndEndedCoreDoesNothing : (inPhase .halted).rst = false ∧ (inPhase .halted).phase = .halted
    ∧ (inPhase .malformed).phase = .malformed ∧ (inPhase .idle).phase = .idle ∧ (inPhase .idle).loadPort = none :=
  ⟨rfl, rfl, rfl, rfl, rfl⟩

/-- `prog` of one instruction that is no bracket has the invariant, under any tape capacity. -/
theorem inv_prog_one (w : Word) (hw : decode w ≠ .illegal) (h1 : w ≠ 0x5B#8) (h2 : w ≠ 0x5D#8) (c : Option Nat) :
    ({ prog [w] [none] with cap := { prog := none, tape := c } } : State).Inv where
  ontape := ⟨rfl, by simp [prog, State.reset], by simp [prog, State.reset], fun i h => absurd (Tape.read_blank i) h,
    fun c _ => by simp [State.extent, prog, State.reset]⟩
  program := ⟨rfl, by simpa [prog] using hw,
    ⟨rfl, fun o h => by cases o <;> simp [prog] at h; exact absurd h h1,
      fun o h => by cases o <;> simp [prog] at h; exact absurd h h2,
      fun i w' h _ _ => by cases i <;> simp [prog] at h; rfl⟩,
    fun c h => by simp at h, by simp [prog, State.reset]⟩
  status := ⟨by simp [prog], by simp [prog, State.reset], by simp [prog, State.reset], by simp [prog], by simp [prog]⟩

theorem witness_HaltExactlyAtProgramEnd :
    ({ prog [0x2B#8] [none] with cap := ⟨none, none⟩ } : State).Inv ∧ (prog [0x2B#8] [none]).stepping
    ∧ (after (prog [0x2B#8] [none])).map (·.phase) = some .halted :=
  ⟨inv_prog_one _ (by decide) (by decide) (by decide) none, stepping_prog _ _, by decide⟩

theorem witness_ProgramIsReadOnly : (after (prog [0x2B#8] [none])).isSome ∧ (prog [0x2B#8] [none]).rst = false
    ∧ (prog [0x2B#8] [none]).phase ≠ .idle := by decide

theorem next_inc : exec .inc (prog [0x2B#8] [none])
    = .next { cellIs (prog [0x2B#8] [none]) 1#8 with ip := 1, phase := .halted } := rfl

theorem witness_ControlFlowOnlyThroughBrackets : ∃ t, exec .inc (prog [0x2B#8] [none]) = .next t := ⟨_, next_inc⟩

/-- A canonical tape, and one equal to it cell by cell. -/
theorem witness_TapeFormIsCanonical : (Tape.blank.write (-1) 5#8).wf = true
    ∧ ∀ i, (Tape.blank.write (-1) 5#8).read i = (Tape.blank.write (-1) 5#8).read i := ⟨rfl, fun _ => rfl⟩

theorem witness_ZeroDetectorSeesOnlyZero :
    (0#8 : Byte).toNat = 0 ∧ 1 ≤ (1#8 : Byte).toNat ∧ 1 ≤ (255#8 : Byte).toNat := by decide

/-- A core whose extent is `-1..1` and whose pointer is at `dp`. -/
def wide (dp : Int) : State := { prog [0x2B#8] [none] with dp := dp, lo := -1, hi := 1 }

/-- `+`, `-` and `.` at both ends of the extent. -/
theorem witness_IncIncrementsCurrentCell : (wide (-1)).hasCell (wide (-1)).dp = true
    ∧ (wide 1).hasCell (wide 1).dp = true := by decide
theorem witness_DecDecrementsCurrentCell : (wide (-1)).hasCell (wide (-1)).dp = true
    ∧ (wide 1).hasCell (wide 1).dp = true := by decide
theorem witness_OutEmitsCurrentCell : (wide (-1)).hasCell (wide (-1)).dp = true
    ∧ (wide 1).hasCell (wide 1).dp = true := by decide

/-- One cell past either end. -/
theorem witness_CellOutsideExtentFaults : (wide 2).hasCell (wide 2).dp = false
    ∧ ({ wide (-2) with answers := [.eof] } : State).hasCell (wide (-2)).dp = false
    ∧ ({ wide (-2) with answers := [.eof] } : State).answers ≠ [] := by decide

/-- Each row of R98: the last move inside, and the growth at each end, with exactly room enough. -/
theorem witness_PointerMachineTransitions :
    ((-1 : Int) ≤ 0 ∧ (0 : Int) ≤ 1 ∧ (0 : Int) + 1 ≤ 1 ∧ (-1 : Int) ≤ 0 - 1)
    ∧ (∀ c : Nat, (some 4 : Option Nat) = some c → (1 : Int) - -1 + 2 ≤ c)
    ∧ (1 : Int) + 1 = 1 + 1 ∧ (-1 : Int) - 1 = -1 - 1 :=
  ⟨by decide, fun c h => by cases h; decide, rfl, rfl⟩

/-- `wide` with a capacity. -/
def capped (dp : Int) (c : Nat) : State := { wide dp with cap := { prog := none, tape := some c } }

/-- `>`: the last move inside, the growth with exactly room, and with one cell too few. -/
theorem witness_RightMovesAndGrows : (wide 0).dp + 1 ≤ (wide 0).hi
    ∧ ((capped 1 4).hi < (capped 1 4).dp + 1 ∧ ∀ c : Nat, (capped 1 4).cap.tape = some c → (capped 1 4).extent + 1 ≤ c)
    ∧ (capped 1 3).hi < (capped 1 3).dp + 1 ∧ (capped 1 3).cap.tape = some 3
      ∧ ((3 : Nat) : Int) < (capped 1 3).extent + 1 :=
  ⟨by decide, ⟨by decide, fun c h => by cases h; decide⟩, by decide⟩

/-- `<`, likewise. -/
theorem witness_LeftMovesAndGrows : (wide 0).lo ≤ (wide 0).dp - 1
    ∧ ((capped (-1) 4).dp - 1 < (capped (-1) 4).lo
      ∧ ∀ c : Nat, (capped (-1) 4).cap.tape = some c → (capped (-1) 4).extent + 1 ≤ c)
    ∧ (capped (-1) 3).dp - 1 < (capped (-1) 3).lo ∧ (capped (-1) 3).cap.tape = some 3
      ∧ ((3 : Nat) : Int) < (capped (-1) 3).extent + 1 :=
  ⟨by decide, ⟨by decide, fun c h => by cases h; decide⟩, by decide⟩

theorem next_right_inside : exec .right (wide 0) = .next { wide 1 with ip := 1, phase := .halted } := rfl
theorem next_left_inside : exec .left (wide 0) = .next { wide (-1) with ip := 1, phase := .halted } := rfl

/-- A growth beyond the capacity at both ends. -/
theorem beyond_right : (capped 1 3).growsBeyondCap .right := ⟨⟨3, rfl, by decide⟩, .inl ⟨rfl, by decide⟩⟩
theorem beyond_left : (capped (-1) 3).growsBeyondCap .left := ⟨⟨3, rfl, by decide⟩, .inr ⟨rfl, by decide⟩⟩

/-- The overflow at both ends, by the instruction alone, and by a whole step. -/
theorem witness_TapeCapacityOverflow :
    ((capped 1 3).growsBeyondCap .right ∧ (capped (-1) 3).growsBeyondCap .left)
    ∧ ((capped 1 3).phase ≠ .fault ∧ ∃ t, exec .right (capped 1 3) = .next t ∧ t.phase = .fault)
    ∧ ∃ t, step { prog [0x3E#8] [none] with cap := ⟨none, some 1⟩ } = .next t ∧ t.phase = .fault
      ∧ t.faultReason = .tapeOverflow :=
  ⟨⟨beyond_right, beyond_left⟩, ⟨by decide, _, rfl, rfl⟩, _, rfl, rfl, rfl⟩

/-- At the boundary: exactly room for the growth, and a move inside a full extent, are no growth beyond the capacity. -/
theorem test_room_is_no_overflow : ¬ (capped 1 4).growsBeyondCap .right ∧ ¬ (capped 0 3).growsBeyondCap .left
    ∧ ¬ (capped 1 3).growsBeyondCap .inc := by
  refine ⟨fun h => ?_, fun h => ?_, fun h => ?_⟩
  · obtain ⟨⟨c, hc, hl⟩, -⟩ := h
    cases hc
    exact absurd hl (by decide)
  · rcases h.2 with ⟨h, -⟩ | ⟨-, h⟩
    · cases h
    · exact absurd h (by decide)
  · rcases h.2 with ⟨h, -⟩ | ⟨h, -⟩ <;> cases h

theorem tapeInv_wide (dp : Int) (h : -1 ≤ dp ∧ dp ≤ 1) : (wide dp).TapeInv :=
  ⟨rfl, by simp [wide], h, fun i hi => absurd (Tape.read_blank i) hi, fun c hc => by simp [wide, prog, State.reset] at hc⟩

theorem witness_GrowthAddsOneZeroCell : (wide 1).TapeInv
    ∧ (exec .right (wide 1) = .next { wide 2 with hi := 2, ip := 1, phase := .halted })
    ∧ (wide (-1)).TapeInv ∧ exec .left (wide (-1)) = .next { wide (-2) with lo := -2, ip := 1, phase := .halted } :=
  ⟨tapeInv_wide 1 (by decide), rfl, tapeInv_wide (-1) (by decide), rfl⟩

/-- A growing step, and a cell of the extent that is not the current one. -/
theorem witness_ExtentNeverShrinks : (after (prog [0x3E#8] [none])).isSome ∧ (prog [0x3E#8] [none]).rst = false
    ∧ (prog [0x3E#8] [none]).phase ≠ .idle ∧ (wide 1).lo ≤ 0 ∧ 0 ≤ (wide 1).hi ∧ 0 ≠ (wide 1).dp := by decide

/-- One step of `>`: the run visits 0 and 1. -/
def visit : Nat → State
  | 0 => prog [0x3E#8] [none]
  | _ + 1 => { prog [0x3E#8] [none] with dp := 1, hi := 1, ip := 1, phase := .halted }

theorem witness_ExtentIsExactlyTheVisitedRange : (visit 0).lo = (visit 0).dp ∧ (visit 0).hi = (visit 0).dp
    ∧ ∀ j, j < 1 → (visit j).stepping ∧ step (visit j) = .next (visit (j + 1)) := by
  refine ⟨rfl, rfl, fun j hj => ?_⟩
  obtain rfl : j = 0 := by omega
  exact ⟨⟨rfl, rfl⟩, rfl⟩

theorem witness_ResultsDoNotDependOnExtent : (wide 1).cap.tape = none ∧ (wide 1).TapeInv
    ∧ ({ wide 1 with lo := -5, hi := 7 } : State).TapeInv ∧ ∃ t, exec .right (wide 1) = .next t :=
  ⟨rfl, tapeInv_wide 1 (by decide),
    ⟨rfl, by simp, by simp [wide], fun i hi => absurd (Tape.read_blank i) hi, fun c hc => by simp [wide, prog, State.reset] at hc⟩,
    ⟨_, rfl⟩⟩

/-- `,` with a byte and with end of input, at an end of the extent. -/
theorem witness_InWritesAnswerToCell :
    (∀ a : Answer, ({ wide 1 with answers := [a] } : State).hasCell (wide 1).dp = true
      ∧ ({ wide 1 with answers := [a] } : State).answers = a :: []) ∧ Answer.byte 255#8 ≠ .eof :=
  ⟨fun _ => ⟨rfl, rfl⟩, by decide⟩

theorem witness_InputBlocksUntilAnswered : (prog [0x2C#8] [none]).stepping
    ∧ (prog [0x2C#8] [none]).iread (prog [0x2C#8] [none]).ip = some 0x2C#8 ∧ decode 0x2C#8 = .op .inp
    ∧ (prog [0x2C#8] [none]).answers = [] ∧ (prog [0x2C#8] [none]).hasCell (prog [0x2C#8] [none]).dp = true :=
  ⟨stepping_prog _ _, rfl, rfl, rfl, rfl⟩

theorem witness_EndOfInputActsAsByteZero : (∃ t, exec .inp { prog [0x2C#8] [none] with answers := [.eof] } = .next t)
    ∧ (prog [0x2C#8] [none]).phase = .run := ⟨⟨_, rfl⟩, rfl⟩

/-- A `.`, a `,` with an answer and without, another instruction; and the steps that run none: an illegal word, a load and
an ended core. -/
theorem witness_TransactionsRecordedInStepOrder : (∃ t, exec .out (wide 1) = .next t)
    ∧ ((∃ t, exec .inp { wide 1 with answers := [.byte 3#8] } = .next t)
      ∧ ({ wide 1 with answers := [.byte 3#8] } : State).answers = .byte 3#8 :: [])
    ∧ ((∃ t, exec .inp (wide 1) = .next t) ∧ (wide 1).answers = []) ∧ (∃ t, exec .inc (wide 1) = .next t)
    ∧ ∀ s ∈ [prog [0x2E#8] [none], prog [0x41#8] [none], waiting [0x2B#8] none, inPhase .halted],
      s.rst = false ∧ (after s).isSome :=
  ⟨⟨_, rfl⟩, ⟨⟨_, rfl⟩, rfl⟩, ⟨⟨_, rfl⟩, rfl⟩, ⟨_, rfl⟩, by decide⟩

/-- `[-]` with `IP` at a bracket. -/
def loopAt (ip : Nat) (v : Byte) : State :=
  { cellIs (prog [0x5B#8, 0x2D#8, 0x5D#8] [some 2, none, some 0]) v with ip := ip }

/-- A zero cell with an entry; the smallest and the largest other value. -/
theorem witness_JzSkipsLoopOnZero : (loopAt 0 0#8).hasCell (loopAt 0 0#8).dp = true ∧ (loopAt 0 0#8).cell = 0#8
    ∧ (loopAt 0 0#8).jread (loopAt 0 0#8).ip = some 2 ∧ (loopAt 0 1#8).cell ≠ 0#8 ∧ (loopAt 0 255#8).cell ≠ 0#8
    ∧ (loopAt 0 255#8).hasCell (loopAt 0 255#8).dp = true := by decide
theorem witness_JnzRepeatsLoopOnNonzero : (loopAt 2 1#8).hasCell (loopAt 2 1#8).dp = true ∧ (loopAt 2 1#8).cell ≠ 0#8
    ∧ (loopAt 2 1#8).jread (loopAt 2 1#8).ip = some 0 ∧ (loopAt 2 0#8).cell = 0#8 ∧ (loopAt 2 255#8).cell ≠ 0#8
    ∧ (loopAt 2 0#8).hasCell (loopAt 2 0#8).dp = true := by decide

theorem witness_AbsentJumpEntryFaults : (prog [0x5B#8] []).hasCell (prog [0x5B#8] []).dp = true
    ∧ (prog [0x5B#8] []).jread (prog [0x5B#8] []).ip = none ∧ (prog [0x5B#8] []).cell = 0#8
    ∧ (cellIs (prog [0x5D#8] [none]) 1#8).jread (prog [0x5D#8] [none]).ip = none
    ∧ (cellIs (prog [0x5D#8] [none]) 1#8).cell ≠ 0#8 := by decide

/-- `[]` with a non-zero cell, at its `]`. -/
def emptyLoop : State := { cellIs (prog [0x5B#8, 0x5D#8] [some 1, some 0]) 5#8 with ip := 1 }

theorem witness_EmptyLoopOnNonzeroNeverEnds : emptyLoop.stepping ∧ emptyLoop.iread emptyLoop.ip = some 0x5D#8
    ∧ emptyLoop.jread emptyLoop.ip = some 0 ∧ 0 + 1 = emptyLoop.ip ∧ emptyLoop.hasCell emptyLoop.dp = true
    ∧ emptyLoop.cell ≠ 0#8 := ⟨⟨rfl, rfl⟩, rfl, rfl, rfl, rfl, by decide⟩

theorem witness_EveryStepKeepsInvariant :
    ({ prog [0x3E#8] [none] with cap := ⟨none, some 1⟩ } : State).Inv
    ∧ (after { prog [0x3E#8] [none] with cap := ⟨none, some 1⟩ }).isSome :=
  ⟨inv_prog_one _ (by decide) (by decide) (by decide) (some 1), by decide⟩

theorem witness_HostMovesKeepInvariant : ({ prog [0x2C#8] [none] with cap := ⟨none, none⟩ } : State).Inv :=
  inv_prog_one _ (by decide) (by decide) (by decide) none

theorem witness_RunningCoreAlwaysProceeds :
    ({ prog [0x3E#8] [none] with cap := ⟨none, some 1⟩ } : State).Inv
    ∧ ({ prog [0x3E#8] [none] with cap := ⟨none, some 1⟩ } : State).stepping :=
  ⟨inv_prog_one _ (by decide) (by decide) (by decide) (some 1), rfl, rfl⟩

/-- A core that the host has given a program, and that has loaded it. -/
theorem witness_ReachableStepsStopOnlyInFault :
    ∃ s, Reachable s ∧ s.phase = .run ∧ step s = .next { s with tape := s.tape.write 0 1#8, ip := 1, phase := .halted } :=
  ⟨_, .step (t := prog [0x2B#8] [none]) (.host (.present [0x2B#8]) (.reset ⟨none, none⟩)) rfl, rfl, rfl⟩

theorem witness_ExitStatusFollowsPhase : (inPhase .halted).phase = .halted ∧ (inPhase .malformed).phase = .malformed
    ∧ (inPhase .idle).phase = .idle ∧ (inPhase .run).phase = .run ∧ (inPhase .fault).phase = .fault :=
  ⟨rfl, rfl, rfl, rfl, rfl⟩

theorem witness_StatusPortShowsCodes : (inPhase .malformed).phase = .malformed ∧ (inPhase .malformed).faultReason = .none
    ∧ ((inPhase .fault).raise .tapeOverflow).phase = .fault
    ∧ ((inPhase .fault).raise .illegalWord).faultReason = .illegalWord
    ∧ ((inPhase .fault).raise .progOverflow).faultReason = .progOverflow
    ∧ ((inPhase .fault).raise .tapeOverflow).faultReason = .tapeOverflow := ⟨rfl, rfl, rfl, rfl, rfl, rfl⟩

/-- Nothing loaded, and a phase that the status invariant allows with it. -/
theorem inv_unloaded (p : Phase) (h : p = .halted ∨ p = .malformed) : (inPhase p).Inv where
  ontape := ⟨rfl, by simp [inPhase, State.reset], by simp [inPhase, State.reset], fun i h => absurd (Tape.read_blank i) h,
    fun c _ => by simp [State.extent, inPhase, State.reset]⟩
  program := ⟨rfl, by simp [inPhase, State.reset],
    ⟨rfl, fun o h => by simp [inPhase, State.reset] at h, fun o h => by simp [inPhase, State.reset] at h,
      fun o w h => by simp [inPhase, State.reset] at h⟩,
    fun c _ => Nat.zero_le c, Nat.le_refl _⟩
  status := by
    rcases h with rfl | rfl <;>
      exact ⟨by simp [inPhase], by simp [inPhase, State.reset], by simp [inPhase], by simp [inPhase, State.reset],
        fun _ => ⟨rfl, rfl, rfl, rfl, rfl, rfl, rfl, rfl, rfl⟩⟩

theorem witness_ResultOnlyOfEndedRun : ((inPhase .halted).Inv ∧ (inPhase .halted).phase = .halted
      ∧ ((0 : Nat) : Int) < (inPhase .halted).extent)
    ∧ (inPhase .malformed).Inv ∧ (inPhase .malformed).phase = .malformed :=
  ⟨⟨inv_unloaded _ (.inl rfl), rfl, by decide⟩, inv_unloaded _ (.inr rfl), rfl⟩

theorem witness_FetchWordIsFetchedNext : decodeTableWord 8 0x5B = some .jz ∧ decodeTableWord 8 0x2B = some .inc := by decide

end Sys2Proof.Tests
end

/-! The phase register: what each named update, a load, an instruction and a step can do to `PHASE` (R31). -/

namespace Sys2Proof.Machine

@[simp] theorem State.malform_phase (s : State) : s.malform.phase = .malformed := rfl
@[simp] theorem State.resetCore_phase (s : State) : s.resetCore.phase = .idle := rfl
@[simp] theorem State.acceptLoad_phase (s : State) (src : List Byte) :
    (s.acceptLoad src).phase = (s.load src).phase := rfl

/-- A load always leaves `IDLE`, for one of the four phases R31 lists. -/
theorem State.load_phase_cases (s : State) (src : List Byte) :
    (s.load src).phase = .run ∨ (s.load src).phase = .halted
      ∨ (s.load src).phase = .malformed ∨ (s.load src).phase = .fault := by
  rcases s.load_cases src with ⟨-, hload⟩ | ⟨-, -, hload⟩ | ⟨jt, -, -, hload⟩ <;> rw [hload]
  · simp
  · simp
  · rw [State.loaded_phase]
    split <;> simp

/-- Three ways an instruction can end: it retires, it raises `TAPE_OVERFLOW`, or it waits for input. -/
theorem Effect.retires_or_overflows_or_waits {s t : State} {i : Instr} (h : Effect s i t) :
    (∃ k, s.retiredAt t k) ∨ t = s.raise .tapeOverflow ∨ t = s := by
  cases h with
  | inc | dec | right | left | out | inpTake | jzTaken | jzFall | jnzTaken | jnzFall =>
    exact .inl ⟨_, State.retiredAt_retire rfl rfl⟩
  | rightFull | leftFull => exact .inr (.inl rfl)
  | inpWait => exact .inr (.inr rfl)

/-- R74: retiring keeps `PHASE`, unless it ends the run. -/
theorem State.retiredAt_phase_cases {s t : State} {k : Nat} (h : s.retiredAt t k) :
    t.phase = s.phase ∨ t.phase = .halted := by
  obtain ⟨-, hend, hgo⟩ := h
  by_cases hk : k = s.n
  · exact .inr (hend hk)
  · exact .inl (hgo hk)

/-- An instruction that changes `PHASE` writes `HALTED` or `FAULT`. -/
theorem Effect.phase_of_change {s t : State} {i : Instr} (h : Effect s i t) (hne : t.phase ≠ s.phase) :
    t.phase = .halted ∨ t.phase = .fault := by
  rcases h.retires_or_overflows_or_waits with ⟨k, hk⟩ | rfl | rfl
  · exact .inl ((State.retiredAt_phase_cases hk).resolve_left hne)
  · exact .inr rfl
  · exact absurd rfl hne

/-- Settles O21, by the kinds of step: only a reset, a load and an instruction step write `PHASE`. -/
theorem phaseChangesOnlyAsListed : Obligations.PhaseChangesOnlyAsListed := by
  intro s t hstep hne
  cases step_kind hstep with
  | reset hrst ht => exact .inl ⟨hrst, by simp [ht]⟩
  | load src hrst hidle hport ht =>
    exact .inr (.inl ⟨hrst, hidle, by simp [hport], by simpa [ht] using s.load_phase_cases src⟩)
  | nothing _ _ ht => exact absurd (congrArg State.phase ht) hne
  | illegal w hrun _ _ ht =>
    obtain ⟨hphase, hrst⟩ := hrun
    exact .inr (.inr ⟨hrst, hphase, .inr (by simp [ht])⟩)
  | instr w i hrun _ _ heffect =>
    obtain ⟨hphase, hrst⟩ := hrun
    exact .inr (.inr ⟨hrst, hphase, heffect.phase_of_change hne⟩)

end Sys2Proof.Machine

/-! The program memory: what the builder puts into `JT` (R46), and which steps write `IROM`, `N` and `JT` (R44). -/

namespace Sys2Proof.Machine

/-! ### The builder's table -/

theorem entry_eq_getElem {jt : List (Option Nat)} {i : Nat} (hi : i < jt.length) : entry jt i = jt[i] := by
  simp [entry, hi]

/-- At the end of the stream, where no `[` is open any more, the builder's invariant is the pairing of R46. -/
theorem LoopInv.pairing {ws : List Word} {jt : List (Option Nat)} (h : LoopInv ws ws.length [] jt) :
    Pairing ws jt where
  length_eq := h.length_eq
  opened o ho := by
    have hlt : o < ws.length := (List.getElem?_eq_some_iff.1 ho).1
    obtain ⟨c, -, hblock⟩ := (h.opened o hlt ho).resolve_left List.not_mem_nil
    exact ⟨c, hblock.pair⟩
  closed c hc := by
    have hlt : c < ws.length := (List.getElem?_eq_some_iff.1 hc).1
    obtain ⟨o, hblock⟩ := h.closed c hlt hc
    exact ⟨o, hblock.pair⟩
  absent i w hw hopen hclose := by
    by_contra hentry
    obtain ⟨-, hbracket⟩ := h.only i hentry
    simp [hw, hopen, hclose] at hbracket

/-- R86: an accepted stream ends with nothing open, so it holds as many `[` as `]`. -/
theorem LoopInv.count_open_eq_close {ws : List Word} {jt : List (Option Nat)} (h : LoopInv ws ws.length [] jt) :
    ws.count 0x5B#8 = ws.count 0x5D#8 := by
  have hdepth := h.depth_eq
  simp only [depth, List.take_length, List.length_nil] at hdepth
  omega

/-- The word is `[` or `]`. -/
def isBracket (w : Word) : Bool := w == 0x5B#8 || w == 0x5D#8

theorem countP_isBracket (ws : List Word) : ws.countP isBracket = ws.count 0x5B#8 + ws.count 0x5D#8 := by
  induction ws with
  | nil => rfl
  | cons w ws ih =>
    by_cases hopen : w = 0x5B#8
    · simp [hopen, isBracket, ih]; omega
    · by_cases hclose : w = 0x5D#8
      · simp [hclose, isBracket, ih]; omega
      · simp [hopen, hclose, isBracket, ih]

/-- A bracket pairing has an entry exactly where the stream has a bracket. -/
theorem Pairing.isSome_entry {ws : List Word} {jt : List (Option Nat)} (h : Pairing ws jt) {i : Nat} {w : Word}
    (hw : ws[i]? = some w) : (entry jt i).isSome = isBracket w := by
  by_cases hopen : w = 0x5B#8
  · subst hopen
    obtain ⟨c, hpair⟩ := h.opened i hw
    simp [hpair.forth, isBracket]
  · by_cases hclose : w = 0x5D#8
    · subst hclose
      obtain ⟨o, hpair⟩ := h.closed i hw
      simp [hpair.back, isBracket]
    · simp [h.absent i w hw hopen hclose, isBracket, hopen, hclose]

theorem Pairing.map_isSome {ws : List Word} {jt : List (Option Nat)} (h : Pairing ws jt) :
    jt.map Option.isSome = ws.map isBracket := by
  refine List.ext_getElem (by simp [h.length_eq]) fun i hjt hws => ?_
  rw [List.length_map] at hjt hws
  rw [List.getElem_map, List.getElem_map, ← entry_eq_getElem hjt]
  exact h.isSome_entry (List.getElem?_eq_getElem hws)

/-- The domain of a bracket pairing is as large as the stream has brackets. -/
theorem Pairing.countP_isSome {ws : List Word} {jt : List (Option Nat)} (h : Pairing ws jt) :
    jt.countP Option.isSome = ws.count 0x5B#8 + ws.count 0x5D#8 := by
  calc jt.countP Option.isSome = (jt.map Option.isSome).countP id := by rw [List.countP_map]; rfl
    _ = (ws.map isBracket).countP id := by rw [h.map_isSome]
    _ = ws.countP isBracket := by rw [List.countP_map]; rfl
    _ = ws.count 0x5B#8 + ws.count 0x5D#8 := countP_isBracket ws

/-- Settles O7: the loop's invariant at the end of the stream is the pairing, whose domain is all the brackets, as many `[`
as `]`. -/
theorem builderPairsEveryBracket : Obligations.BuilderPairsEveryBracket := by
  intro ws jt hbuild
  have hloop := buildJumpTable_loopInv hbuild
  refine ⟨hloop.pairing, ?_⟩
  rw [hloop.pairing.countP_isSome, hloop.count_open_eq_close]
  omega

/-! ### Who writes the program -/

theorem State.sameProgram_refl (s : State) : s.sameProgram s := ⟨rfl, rfl, rfl⟩

theorem State.sameProgram_raise (s : State) (r : FaultReason) : s.sameProgram (s.raise r) := ⟨rfl, rfl, rfl⟩

/-- Retiring writes `IP` and `PHASE`, so the program is what the step before it left. -/
theorem State.sameProgram_retire {s t : State} (h : s.sameProgram t) (k : Nat) : s.sameProgram (t.retire k) := h

/-- R44: no effect an instruction can have writes `IROM`, `N` or `JT`. -/
theorem Effect.sameProgram {s t : State} {i : Instr} (h : Effect s i t) : s.sameProgram t := by
  cases h with
  | inc | dec | right | left | out | inpTake => exact State.sameProgram_retire ⟨rfl, rfl, rfl⟩ _
  | jzTaken | jzFall | jnzTaken | jnzFall => exact State.sameProgram_retire s.sameProgram_refl _
  | rightFull | leftFull => exact s.sameProgram_raise _
  | inpWait => exact s.sameProgram_refl

/-- Settles O24, by the kinds of step: with no reset and no load, a step does nothing, raises a fault or runs an
instruction. -/
theorem programIsReadOnly : Obligations.ProgramIsReadOnly := by
  refine ⟨fun s t hstep hrst hphase => ?_, fun i s t hexec => (exec_effect hexec).sameProgram⟩
  cases step_kind hstep with
  | reset hraised _ => simp [hrst] at hraised
  | load src _ hidle _ _ => exact absurd hidle hphase
  | nothing _ _ ht => exact ht ▸ s.sameProgram_refl
  | illegal w _ _ _ ht => exact ht ▸ s.sameProgram_raise _
  | instr w i _ _ _ heffect => exact heffect.sameProgram

end Sys2Proof.Machine

/-! ### The decoder and the encoder -/

namespace Sys2Proof

/-- R62, R65: the decoder answers an instruction for that instruction's own word. -/
@[simp] theorem decode_encode (i : Instr) : decode (encode i) = .op i := by
  cases i <;> rfl

/-- R65: the decoder answers an instruction for no other word. Each branch of the table tests for one word and answers that
word's instruction. -/
theorem eq_encode_of_decode {w : Word} {i : Instr} (h : decode w = .op i) : w = encode i := by
  unfold decode at h
  split_ifs at h with hw hw hw hw hw hw hw hw
  all_goals cases h; exact hw

/-- R65: a word that is no instruction's word is illegal. -/
theorem decode_eq_illegal {w : Word} (h : ∀ i, w ≠ encode i) : decode w = .illegal := by
  cases hd : decode w with
  | op i => exact absurd (eq_encode_of_decode hd) (h i)
  | illegal => rfl

/-- The eight words in the order of R65's table. -/
theorem encode_mem_decodeWords (i : Instr) :
    encode i ∈ [0x2B#8, 0x2D#8, 0x3E#8, 0x3C#8, 0x2E#8, 0x2C#8, 0x5B#8, 0x5D#8] := by
  cases i <;> decide

/-- Settles O1: each written-out word is its instruction's `encode`, and a word outside the table is no instruction's. -/
theorem decoderReadsWrittenOutWords : Obligations.DecoderReadsWrittenOutWords := by
  refine ⟨decode_encode .inc, rfl, decode_encode .dec, rfl, decode_encode .right, rfl, decode_encode .left, rfl,
    decode_encode .out, rfl, decode_encode .inp, rfl, decode_encode .jz, rfl, decode_encode .jnz, rfl, fun w hw => ?_⟩
  exact decode_eq_illegal fun i hi => hw (hi ▸ encode_mem_decodeWords i)

end Sys2Proof

/-! The sanitizer (R80, R81) and the load step (R84, R89). -/

namespace Sys2Proof.Machine

/-! ### The sanitizer -/

/-- R62, R80: `ALPHA` is the words of the eight instructions. -/
theorem mem_alpha {b : Byte} : b ∈ alpha ↔ ∃ i, b = encode i := by
  constructor
  · intro h
    simp only [alpha, List.mem_cons, List.not_mem_nil, or_false] at h
    rcases h with h | h | h | h | h | h | h | h
    · exact ⟨.inc, h⟩
    · exact ⟨.inp, h⟩
    · exact ⟨.dec, h⟩
    · exact ⟨.out, h⟩
    · exact ⟨.left, h⟩
    · exact ⟨.right, h⟩
    · exact ⟨.jz, h⟩
    · exact ⟨.jnz, h⟩
  · rintro ⟨i, rfl⟩
    cases i <;> decide

theorem mem_sanitize {src : List Byte} {b : Byte} : b ∈ sanitize src ↔ b ∈ src ∧ b ∈ alpha := by
  simp [sanitize]

/-- A stream of `ALPHA` alone is sanitized already. -/
theorem sanitize_eq_self {src : List Byte} (h : ∀ b ∈ src, b ∈ alpha) : sanitize src = src :=
  List.filter_eq_self.2 fun b hb => List.contains_iff_mem.2 (h b hb)

theorem count_sanitize_of_mem {b : Byte} (h : b ∈ alpha) (src : List Byte) : (sanitize src).count b = src.count b :=
  List.count_filter (List.contains_iff_mem.2 h)

theorem count_sanitize_of_notMem {b : Byte} (h : b ∉ alpha) (src : List Byte) : (sanitize src).count b = 0 :=
  List.count_eq_zero.2 fun hb => h (mem_sanitize.1 hb).2

/-- Settles O4: the sanitizer is a filter, so it keeps the order, every occurrence of a word of `ALPHA` and no other. -/
theorem sanitizerKeepsExactlyInstructionWords : Obligations.SanitizerKeepsExactlyInstructionWords :=
  fun src => ⟨List.filter_sublist, fun _ => ⟨(count_sanitize_of_mem · src), (count_sanitize_of_notMem · src)⟩⟩

/-- Settles O5: a sanitized stream holds `ALPHA` alone, and `ALPHA` is the instruction words. -/
theorem sanitizerIsIdempotent : Obligations.SanitizerIsIdempotent := by
  refine ⟨fun src => sanitize_eq_self fun b hb => (mem_sanitize.1 hb).2, fun src hsrc => ?_⟩
  refine List.eq_nil_iff_forall_not_mem.2 fun b hb => ?_
  obtain ⟨hmem, halpha⟩ := mem_sanitize.1 hb
  obtain ⟨i, hi⟩ := mem_alpha.1 halpha
  exact hsrc b hmem i hi

/-! ### The load -/

theorem overProgCap_eq_false {cap : Option Nat} {len : Nat} :
    overProgCap cap len = false ↔ ∀ c : Nat, cap = some c → len ≤ c := by
  cases cap <;> simp [overProgCap]

variable {s : State} {src : List Byte}

/-- R84: a program over the capacity. -/
theorem State.load_of_over (hover : ∃ c, s.cap.prog = some c ∧ c < (sanitize src).length) :
    s.load src = s.raise .progOverflow := by
  simp [State.load, overProgCap_eq_true.2 hover]

/-- R124: a program within the capacity that the builder refuses. -/
theorem State.load_of_refused (hfits : ∀ c, s.cap.prog = some c → (sanitize src).length ≤ c)
    (hbuild : buildJumpTable (sanitize src) = none) : s.load src = s.malform := by
  simp [State.load, overProgCap_eq_false.2 hfits, hbuild]

/-- R89: a program within the capacity that the builder accepts. -/
theorem State.load_of_built {jt : List (Option Nat)} (hfits : ∀ c, s.cap.prog = some c → (sanitize src).length ≤ c)
    (hbuild : buildJumpTable (sanitize src) = some jt) : s.load src = s.loaded (sanitize src) jt := by
  simp [State.load, overProgCap_eq_false.2 hfits, hbuild]

/-- Settles O15: `raise` writes the status alone, and neither outcome within the capacity is `FAULT`. -/
theorem programCapacityOverflow : Obligations.ProgramCapacityOverflow := by
  refine fun s src => ⟨State.load_of_over, fun _ hfits => ?_⟩
  cases hbuild : buildJumpTable (sanitize src) with
  | none => simp [State.load_of_refused hfits hbuild]
  | some jt =>
    rw [State.load_of_built hfits hbuild, State.loaded_phase]
    split <;> simp

/-! ### The load step -/

/-- R89: the step of an idle core to which the host presents a source is the load of it, which takes the source. -/
theorem step_of_source (hidle : s.phase = .idle) (hrst : s.rst = false) (hport : s.loadPort = some src) :
    step s = .next { s.load src with loadPort := none } := by
  simp [step, cycle, hidle, hrst, hport, State.acceptLoad]

/-- R137: an idle core without a source does nothing. -/
theorem step_of_no_source (hidle : s.phase = .idle) (hrst : s.rst = false) (hport : s.loadPort = none) :
    step s = .next s := by
  simp [step, cycle, hidle, hrst, hport]

/-- Settles O14: the load step is the load, with its three outcomes; with no source an idle core does nothing, and
outside `IDLE` the program is read-only. -/
theorem loadStepOutcomes : Obligations.LoadStepOutcomes := by
  refine ⟨fun s src hidle hrst hport => ?_, fun s t hstep hrst hnoload => ?_⟩
  · have hstep := step_of_source hidle hrst hport
    refine ⟨fun hover => ?_, fun hfits => ⟨fun hbuild => ?_, fun jt hbuild => ?_⟩⟩
    · rw [State.load_of_over hover] at hstep
      exact ⟨_, hstep, rfl, rfl, s.sameProgram_raise .progOverflow, ⟨rfl, rfl, rfl⟩, rfl, rfl, rfl, rfl⟩
    · rw [State.load_of_refused hfits hbuild] at hstep
      exact ⟨_, hstep, rfl, rfl, ⟨rfl, rfl, rfl⟩, ⟨rfl, rfl, rfl⟩, rfl, rfl, rfl, rfl⟩
    · rw [State.load_of_built hfits hbuild] at hstep
      exact ⟨_, hstep, rfl, rfl, rfl, rfl, rfl, rfl, rfl, Tape.read_blank 0, rfl,
        fun hnil => if_pos (List.length_eq_zero_iff.2 hnil),
        fun hne => if_neg (mt List.length_eq_zero_iff.1 hne), rfl, rfl⟩
  · by_cases hidle : s.phase = .idle
    · rw [step_of_no_source hidle hrst (hnoload.resolve_left (absurd hidle))] at hstep
      cases hstep
      exact s.sameProgram_refl
    · exact programIsReadOnly.1 s t hstep hrst hidle

end Sys2Proof.Machine

/-! The cell instructions `+` and `-` (R96, R97), the moves `>` and `<` (R98 to R100), and the growth of the tape and its
limit (R101, R102). -/

namespace Sys2Proof.Machine

/-! ### Cells -/

/-- R57: the two half-tapes share no cell, so the law of a memory is the law of the tape. -/
theorem Tape.read_write (t : Tape) (i j : Int) (v : Byte) :
    (t.write i v).read j = if j = i then v else t.read j := by
  cases i with
  | ofNat a =>
    cases j with
    | ofNat b => simpa [Tape.read, Tape.write] using Memory.read_write t.right a b v
    | negSucc b => rfl
  | negSucc a =>
    cases j with
    | ofNat b => rfl
    | negSucc b => simpa [Tape.read, Tape.write] using Memory.read_write t.left a b v

@[simp] theorem Tape.read_write_same (t : Tape) (i : Int) (v : Byte) : (t.write i v).read i = v := by
  simp [Tape.read_write]

theorem Tape.read_write_of_ne (t : Tape) {i j : Int} (v : Byte) (h : j ≠ i) : (t.write i v).read j = t.read j := by
  simp [Tape.read_write, h]

/-! ### The cell instructions -/

variable {s t : State}

/-- The frame of a store to the current cell, in the words statements use. -/
theorem storeCell_completes (h : s.hasCell s.dp = true) (v : Byte) :
    ∃ t, storeCell s v = .next t ∧ t.cell = v
      ∧ s.sameCellsBut t s.dp ∧ s.samePointer t ∧ s.sameProgram t ∧ s.sameIo t ∧ s.sameControl t
      ∧ s.retiredAt t (s.ip + 1) :=
  ⟨_, storeCell_of_hasCell h v, s.tape.read_write_same s.dp v, fun _ => s.tape.read_write_of_ne v,
    ⟨rfl, rfl, rfl⟩, ⟨rfl, rfl, rfl⟩, ⟨rfl, rfl⟩, ⟨rfl, rfl, rfl, rfl⟩, State.retiredAt_retire rfl rfl⟩

theorem toNat_alu_inc (a : Byte) : (alu .inc a).toNat = (a.toNat + 1) % 256 := BitVec.toNat_add a 1#8

theorem toNat_alu_dec (a : Byte) : (alu .dec a).toNat = (a.toNat + 255) % 256 := by
  rw [Nat.add_comm]
  exact BitVec.toNat_sub a 1#8

/-- Settles O30: `+` stores the incremented cell. -/
theorem incIncrementsCurrentCell : Obligations.IncIncrementsCurrentCell := by
  refine ⟨decode_encode .inc, fun s hcell => ?_⟩
  obtain ⟨t, hnext, hvalue, hframe⟩ := storeCell_completes hcell (alu .inc s.cell)
  exact ⟨t, (withCell_of_hasCell hcell _).trans hnext, hvalue ▸ toNat_alu_inc s.cell, hframe⟩

/-- Settles O31: `-` stores the decremented cell. -/
theorem decDecrementsCurrentCell : Obligations.DecDecrementsCurrentCell := by
  refine ⟨decode_encode .dec, fun s hcell => ?_⟩
  obtain ⟨t, hnext, hvalue, hframe⟩ := storeCell_completes hcell (alu .dec s.cell)
  exact ⟨t, (withCell_of_hasCell hcell _).trans hnext, hvalue ▸ toNat_alu_dec s.cell, hframe⟩

/-! ### The pointer machine -/

section PointerMachine

variable {cap : Option Nat} {m : Move} {dp lo hi : Int}

theorem tapeFull_eq_false : tapeFull cap lo hi = false ↔ ∀ c : Nat, cap = some c → hi - lo + 1 + 1 ≤ c := by
  cases cap <;> simp [tapeFull]

theorem pointerMachine_right_inside (hin : dp + 1 ≤ hi) :
    pointerMachine cap .right dp lo hi = ⟨dp + 1, lo, hi, false, false⟩ := by
  simp [pointerMachine, Int.not_lt.2 hin]

theorem pointerMachine_left_inside (hin : lo ≤ dp - 1) :
    pointerMachine cap .left dp lo hi = ⟨dp - 1, lo, hi, false, false⟩ := by
  simp [pointerMachine, Int.not_lt.2 hin]

theorem pointerMachine_right_grows (hcross : hi < dp + 1) (hroom : tapeFull cap lo hi = false) :
    pointerMachine cap .right dp lo hi = ⟨dp + 1, lo, dp + 1, true, false⟩ := by
  simp [pointerMachine, hcross, hroom]

theorem pointerMachine_left_grows (hcross : dp - 1 < lo) (hroom : tapeFull cap lo hi = false) :
    pointerMachine cap .left dp lo hi = ⟨dp - 1, dp - 1, hi, true, false⟩ := by
  simp [pointerMachine, hcross, hroom]

/-- R102, for `>`: the overflow is exactly a move past `HI` on a full tape. -/
theorem pointerMachine_right_overflow_iff :
    (pointerMachine cap .right dp lo hi).overflow = true ↔ tapeFull cap lo hi = true ∧ hi < dp + 1 := by
  refine ⟨fun h => ?_, fun ⟨hfull, hcross⟩ => by simp [pointerMachine, hcross, hfull]⟩
  obtain ⟨hfull, hcross, -⟩ := pointerMachine_overflow h
  exact ⟨hfull, hcross rfl⟩

/-- R102, for `<`: the overflow is exactly a move past `LO` on a full tape. -/
theorem pointerMachine_left_overflow_iff :
    (pointerMachine cap .left dp lo hi).overflow = true ↔ tapeFull cap lo hi = true ∧ dp - 1 < lo := by
  refine ⟨fun h => ?_, fun ⟨hfull, hcross⟩ => by simp [pointerMachine, hcross, hfull]⟩
  obtain ⟨hfull, -, hcross⟩ := pointerMachine_overflow h
  exact ⟨hfull, hcross rfl⟩

/-- R101: a move past `HI` that does not overflow grows the tape. -/
theorem pointerMachine_right_of_no_overflow (hcross : hi < dp + 1)
    (h : (pointerMachine cap .right dp lo hi).overflow = false) :
    pointerMachine cap .right dp lo hi = ⟨dp + 1, lo, dp + 1, true, false⟩ := by
  refine pointerMachine_right_grows hcross (Bool.eq_false_iff.2 fun hfull => ?_)
  exact Bool.eq_false_iff.1 h (pointerMachine_right_overflow_iff.2 ⟨hfull, hcross⟩)

/-- R101: a move past `LO` that does not overflow grows the tape. -/
theorem pointerMachine_left_of_no_overflow (hcross : dp - 1 < lo)
    (h : (pointerMachine cap .left dp lo hi).overflow = false) :
    pointerMachine cap .left dp lo hi = ⟨dp - 1, dp - 1, hi, true, false⟩ := by
  refine pointerMachine_left_grows hcross (Bool.eq_false_iff.2 fun hfull => ?_)
  exact Bool.eq_false_iff.1 h (pointerMachine_left_overflow_iff.2 ⟨hfull, hcross⟩)

/-- A move whose outputs are known to be no overflow writes them and retires. -/
theorem movePointer_completes {p : PointerOut} (hp : pointerMachine s.cap.tape m s.dp s.lo s.hi = p)
    (hno : p.overflow = false) : movePointer m s = .next ((s.setPointer p).retire (s.ip + 1)) := by
  simp [movePointer, hp, hno]

theorem movePointer_overflows (h : (pointerMachine s.cap.tape m s.dp s.lo s.hi).overflow = true) :
    movePointer m s = .next (s.raise .tapeOverflow) := by
  simp [movePointer, h]

end PointerMachine

/-! ### The overflow -/

/-- R102: a growth beyond the capacity is an overflow of the pointer machine in the move the instruction makes. -/
theorem State.growsBeyondCap_iff_overflow {i : Instr} : s.growsBeyondCap i ↔
    (i = .right ∧ (pointerMachine s.cap.tape .right s.dp s.lo s.hi).overflow = true)
      ∨ (i = .left ∧ (pointerMachine s.cap.tape .left s.dp s.lo s.hi).overflow = true) := by
  rw [pointerMachine_right_overflow_iff, pointerMachine_left_overflow_iff, tapeFull_eq_true]
  simp only [State.growsBeyondCap, State.extent, and_or_left, and_left_comm]

theorem exec_of_growsBeyondCap {i : Instr} (h : s.growsBeyondCap i) : exec i s = .next (s.raise .tapeOverflow) := by
  rcases State.growsBeyondCap_iff_overflow.1 h with ⟨rfl, hover⟩ | ⟨rfl, hover⟩
  · exact movePointer_overflows hover
  · exact movePointer_overflows hover

/-- An instruction that retires does not enter `FAULT`. -/
theorem State.retiredAt_phase_ne_fault {k : Nat} (h : s.retiredAt t k) (hs : s.phase ≠ .fault) : t.phase ≠ .fault := by
  rcases State.retiredAt_phase_cases h with hkeep | hhalt
  · exact hkeep ▸ hs
  · simp [hhalt]

/-- R102: an instruction that enters `FAULT` is a growth beyond the capacity. -/
theorem Effect.growsBeyondCap_of_fault {i : Instr} (h : Effect s i t) (hs : s.phase ≠ .fault)
    (ht : t.phase = .fault) : s.growsBeyondCap i := by
  cases h with
  | rightFull hover => exact State.growsBeyondCap_iff_overflow.2 (.inl ⟨rfl, hover⟩)
  | leftFull hover => exact State.growsBeyondCap_iff_overflow.2 (.inr ⟨rfl, hover⟩)
  | inpWait => exact absurd ht hs
  | inc | dec | right | left | out | inpTake | jzTaken | jzFall | jnzTaken | jnzFall =>
    exact absurd ht (State.retiredAt_phase_ne_fault (State.retiredAt_retire rfl rfl) hs)

/-- R84: the one fault a load raises is `PROG_OVERFLOW`. -/
theorem State.load_faultReason_of_fault {src : List Byte} (h : (s.load src).phase = .fault) :
    (s.load src).faultReason = .progOverflow := by
  rcases s.load_cases src with ⟨-, hload⟩ | ⟨-, -, hload⟩ | ⟨jt, -, -, hload⟩ <;> rw [hload] at h ⊢
  · rfl
  · cases h
  · rw [State.loaded_phase] at h
    split at h <;> cases h

/-- Settles O36: the pointer machine's overflow is the only way an instruction enters `FAULT`, and a load and an illegal
word give another reason. -/
theorem tapeCapacityOverflow : Obligations.TapeCapacityOverflow := by
  refine fun s => ⟨fun i => exec_of_growsBeyondCap, fun i t hs hexec => (exec_effect hexec).growsBeyondCap_of_fault hs,
    fun t hstep hfault hreason => ?_⟩
  cases step_kind hstep with
  | reset _ ht => simp [ht] at hfault
  | load src _ _ _ ht =>
    subst ht
    cases (State.load_faultReason_of_fault hfault).symm.trans hreason
  | nothing _ hphase ht => rcases hphase with h | h | ⟨h, -⟩ <;> simp [ht, h] at hfault
  | illegal w _ _ _ ht => simp [ht] at hreason
  | instr w i hrun hw hop heffect =>
    have hs : s.phase ≠ .fault := by simp [hrun.1]
    exact ⟨i, ⟨hrun, by simp [hw, hop]⟩, heffect.growsBeyondCap_of_fault hs hfault⟩

/-! ### The moves -/

/-- What a completed move leaves unchanged beside the pointer, the extent and the cells. -/
theorem State.setPointer_retire_frame (s : State) (p : PointerOut) :
    s.sameProgram ((s.setPointer p).retire (s.ip + 1)) ∧ s.sameIo ((s.setPointer p).retire (s.ip + 1))
      ∧ s.sameControl ((s.setPointer p).retire (s.ip + 1))
      ∧ s.retiredAt ((s.setPointer p).retire (s.ip + 1)) (s.ip + 1) :=
  ⟨⟨rfl, rfl, rfl⟩, ⟨rfl, rfl⟩, ⟨rfl, rfl, rfl, rfl⟩, State.retiredAt_retire rfl rfl⟩

/-- Settles O34, by the pointer machine's three outcomes for `>`. -/
theorem rightMovesAndGrows : Obligations.RightMovesAndGrows := by
  refine ⟨decode_encode .right, fun s => ⟨fun hin => ?_, fun hcross hroom => ?_, fun c hcross hcap hfull => ?_⟩⟩
  · exact ⟨_, movePointer_completes (pointerMachine_right_inside hin) rfl, rfl, rfl, rfl, fun _ => rfl,
      s.setPointer_retire_frame _⟩
  · exact ⟨_, movePointer_completes (pointerMachine_right_grows hcross (tapeFull_eq_false.2 hroom)) rfl, rfl, rfl, rfl,
      s.tape.read_write_same _ _, fun _ => s.tape.read_write_of_ne _, s.setPointer_retire_frame _⟩
  · exact exec_of_growsBeyondCap ⟨⟨c, hcap, hfull⟩, .inl ⟨rfl, hcross⟩⟩

/-- Settles O35, by the pointer machine's three outcomes for `<`. -/
theorem leftMovesAndGrows : Obligations.LeftMovesAndGrows := by
  refine ⟨decode_encode .left, fun s => ⟨fun hin => ?_, fun hcross hroom => ?_, fun c hcross hcap hfull => ?_⟩⟩
  · exact ⟨_, movePointer_completes (pointerMachine_left_inside hin) rfl, rfl, rfl, rfl, fun _ => rfl,
      s.setPointer_retire_frame _⟩
  · exact ⟨_, movePointer_completes (pointerMachine_left_grows hcross (tapeFull_eq_false.2 hroom)) rfl, rfl, rfl, rfl,
      s.tape.read_write_same _ _, fun _ => s.tape.read_write_of_ne _, s.setPointer_retire_frame _⟩
  · exact exec_of_growsBeyondCap ⟨⟨c, hcap, hfull⟩, .inr ⟨rfl, hcross⟩⟩

/-- Settles O37: only a move that completes writes the extent, and from a pointer inside it a move past an end starts at
that end. -/
theorem growthAddsOneZeroCell : Obligations.GrowthAddsOneZeroCell := by
  intro i s t hinv hexec
  obtain ⟨hlo, hhi⟩ := hinv.pointer
  cases exec_effect hexec with
  | inc | dec | rightFull | leftFull | out | inpWait | inpTake | jzTaken | jzFall | jnzTaken | jnzFall =>
    exact .inl ⟨rfl, rfl⟩
  | right hno =>
    by_cases hcross : s.hi < s.dp + 1
    · have hend : s.dp = s.hi := by omega
      rw [pointerMachine_right_of_no_overflow hcross hno, hend]
      exact .inr (.inl ⟨rfl, rfl, rfl, rfl, rfl, s.tape.read_write_same _ _, rfl, State.retiredAt_retire rfl rfl⟩)
    · rw [pointerMachine_right_inside (Int.not_lt.1 hcross)]
      exact .inl ⟨rfl, rfl⟩
  | left hno =>
    by_cases hcross : s.dp - 1 < s.lo
    · have hend : s.dp = s.lo := by omega
      rw [pointerMachine_left_of_no_overflow hcross hno, hend]
      exact .inr (.inr ⟨rfl, rfl, rfl, rfl, rfl, s.tape.read_write_same _ _, rfl, State.retiredAt_retire rfl rfl⟩)
    · rw [pointerMachine_left_inside (Int.not_lt.1 hcross)]
      exact .inl ⟨rfl, rfl⟩

end Sys2Proof.Machine

/-! The I/O instructions `.` and `,` (R106, R109). -/

namespace Sys2Proof.Machine

variable {s : State}

/-- R106: `.` on a cell with storage emits the cell and retires. -/
theorem execOut_of_hasCell (h : s.hasCell s.dp = true) :
    execOut s = .next ((s.outWrite s.cell).retire (s.ip + 1)) :=
  withCell_of_hasCell h _

/-- R109: an answered `,` takes the answer and stores its value. -/
theorem execIn_of_answer {a : Answer} {rest : List Answer} (h : s.answers = a :: rest) :
    execIn s = storeCell (s.inTake a rest) a.value := by
  simp [execIn, h]

/-- Settles O41: the record write and the retirement touch neither the tape, the pointers nor the host's ports. -/
theorem outEmitsCurrentCell : Obligations.OutEmitsCurrentCell :=
  ⟨decode_encode .out, fun _ hcell => ⟨_, execOut_of_hasCell hcell, rfl, rfl, fun _ => rfl,
    ⟨rfl, rfl, rfl⟩, ⟨rfl, rfl, rfl⟩, ⟨rfl, rfl, rfl, rfl⟩, State.retiredAt_retire rfl rfl⟩⟩

/-- Settles O42: taking the answer writes the host's side alone, so the frame is that of the store which follows it. -/
theorem inWritesAnswerToCell : Obligations.InWritesAnswerToCell := by
  refine ⟨decode_encode .inp, fun s a rest hcell hanswers => ?_⟩
  have htaken : (s.inTake a rest).hasCell (s.inTake a rest).dp = true := hcell
  obtain ⟨t, hnext, hvalue, hcells, hpointer, hprogram, ⟨hevents, hrest⟩, hcontrol, hretired⟩ :=
    storeCell_completes htaken a.value
  refine ⟨t, (execIn_of_answer hanswers).trans hnext, ?_, ?_, hrest, hevents, hcells, hpointer, hprogram, hcontrol,
    hretired⟩
  · rintro b rfl
    exact hvalue
  · rintro rfl
    exact hvalue

end Sys2Proof.Machine

/-! The bracket instructions `[` and `]` (R113 to R115). -/

namespace Sys2Proof.Machine

variable {s : State}

/-! ### The zero detector -/

theorem zeroDetect_of_zero {a : Byte} (h : a = 0#8) : zeroDetect a = true := beq_iff_eq.2 h

theorem zeroDetect_of_ne_zero {a : Byte} (h : a ≠ 0#8) : zeroDetect a = false := beq_false_of_ne h

/-! ### The jump -/

/-- R113: a taken jump with an entry retires one past it. -/
theorem jump_taken {k : Nat} (h : s.jread s.ip = some k) : jump s true = .next (s.retire (k + 1)) := by
  simp [jump, State.jumpMux, h]

/-- R113: a jump that is not taken retires at the next instruction and needs no entry. -/
theorem jump_not_taken (s : State) : jump s false = .next (s.retire (s.ip + 1)) := rfl

/-- The frame of a bracket, in the words statements use: retiring writes `IP` and `PHASE` alone. -/
theorem State.retire_frame (s : State) (k : Nat) :
    s.retiredAt (s.retire k) k ∧ s.sameCells (s.retire k) ∧ s.samePointer (s.retire k) ∧ s.sameProgram (s.retire k)
      ∧ s.sameIo (s.retire k) ∧ s.sameControl (s.retire k) :=
  ⟨State.retiredAt_retire rfl rfl, fun _ => rfl, ⟨rfl, rfl, rfl⟩, ⟨rfl, rfl, rfl⟩, ⟨rfl, rfl⟩, ⟨rfl, rfl, rfl, rfl⟩⟩

/-! ### The brackets -/

/-- R114: on a zero cell `[` is the taken jump. -/
theorem execJz_of_zero (hcell : s.hasCell s.dp = true) (hzero : s.cell = 0#8) : execJz s = jump s true := by
  rw [execJz, withCell_of_hasCell hcell, zeroDetect_of_zero hzero]

/-- R114: on a non-zero cell `[` falls through. -/
theorem execJz_of_ne_zero (hcell : s.hasCell s.dp = true) (hne : s.cell ≠ 0#8) : execJz s = jump s false := by
  rw [execJz, withCell_of_hasCell hcell, zeroDetect_of_ne_zero hne]

/-- R115: on a non-zero cell `]` is the taken jump. -/
theorem execJnz_of_ne_zero (hcell : s.hasCell s.dp = true) (hne : s.cell ≠ 0#8) : execJnz s = jump s true := by
  rw [execJnz, withCell_of_hasCell hcell, zeroDetect_of_ne_zero hne, Bool.not_false]

/-- R115: on a zero cell `]` falls through. -/
theorem execJnz_of_zero (hcell : s.hasCell s.dp = true) (hzero : s.cell = 0#8) : execJnz s = jump s false := by
  rw [execJnz, withCell_of_hasCell hcell, zeroDetect_of_zero hzero, Bool.not_true]

/-- Settles O46: the zero detector decides whether the jump of `[` is taken, and both ways of it only retire. -/
theorem jzSkipsLoopOnZero : Obligations.JzSkipsLoopOnZero := by
  refine ⟨decode_encode .jz, fun s hcell => ⟨fun c hzero hentry => ?_, fun hne => ?_⟩⟩
  · exact ⟨_, (execJz_of_zero hcell hzero).trans (jump_taken hentry), s.retire_frame _⟩
  · exact ⟨_, (execJz_of_ne_zero hcell hne).trans (jump_not_taken s), s.retire_frame _⟩

/-- Settles O47: the negated zero detector decides whether the jump of `]` is taken, and both ways of it only retire. -/
theorem jnzRepeatsLoopOnNonzero : Obligations.JnzRepeatsLoopOnNonzero := by
  refine ⟨decode_encode .jnz, fun s hcell => ⟨fun o hne hentry => ?_, fun hzero => ?_⟩⟩
  · exact ⟨_, (execJnz_of_ne_zero hcell hne).trans (jump_taken hentry), s.retire_frame _⟩
  · exact ⟨_, (execJnz_of_zero hcell hzero).trans (jump_not_taken s), s.retire_frame _⟩

end Sys2Proof.Machine

/-! Faults (R128) and the exit status (R126). -/

namespace Sys2Proof.Machine

variable {s t : State}

/-! ### Entering and leaving `FAULT` -/

@[simp] theorem State.resetCore_faultReason (s : State) : s.resetCore.faultReason = .none := rfl

/-- R84: a load that ends in `FAULT` only raises the fault; it does not store the program. -/
theorem State.load_eq_raise_of_fault {src : List Byte} (h : (s.load src).phase = .fault) :
    s.load src = s.raise .progOverflow := by
  rcases s.load_cases src with ⟨-, hload⟩ | ⟨-, -, hload⟩ | ⟨jt, -, -, hload⟩
  · exact hload
  · rw [hload] at h
    cases h
  · rw [hload, State.loaded_phase] at h
    split at h <;> cases h

/-- R102: an instruction that enters `FAULT` only raises the fault: it neither retires nor waits. -/
theorem Effect.eq_raise_of_fault {i : Instr} (h : Effect s i t) (hs : s.phase ≠ .fault) (ht : t.phase = .fault) :
    t = s.raise .tapeOverflow := by
  rcases h.retires_or_overflows_or_waits with ⟨k, hk⟩ | hraise | rfl
  · exact absurd ht (State.retiredAt_phase_ne_fault hk hs)
  · exact hraise
  · exact absurd ht hs

/-- R128: a step that enters `FAULT` is `raise` with a reason, beside the load port, which a load empties. -/
theorem eq_raise_of_step_enters_fault (hstep : step s = .next t) (hs : s.phase ≠ .fault) (ht : t.phase = .fault) :
    ∃ r : FaultReason, r ≠ .none ∧ t = { s.raise r with loadPort := t.loadPort } := by
  cases step_kind hstep with
  | reset _ heq => simp [heq] at ht
  | load src _ _ _ heq =>
    subst heq
    exact ⟨.progOverflow, by decide, by rw [State.acceptLoad, State.load_eq_raise_of_fault ht]⟩
  | nothing _ _ heq => exact absurd (heq ▸ ht) hs
  | illegal w _ _ _ heq => exact ⟨.illegalWord, by decide, by rw [heq]⟩
  | instr w i _ _ _ heffect => exact ⟨.tapeOverflow, by decide, by rw [heffect.eq_raise_of_fault hs ht]⟩

/-- R130: of the kinds of step only a reset starts in `FAULT`. -/
theorem reset_of_step_from_fault (hstep : step s = .next t) (hs : s.phase = .fault) :
    s.rst = true ∧ t = s.resetCore := by
  cases step_kind hstep with
  | reset hrst heq => exact ⟨hrst, heq⟩
  | load src _ hidle _ _ => cases hs.symm.trans hidle
  | nothing _ hphase _ => simp [hs] at hphase
  | illegal w hrun _ _ _ => cases hs.symm.trans hrun.1
  | instr w i hrun _ _ _ => cases hs.symm.trans hrun.1

/-- Settles O18: entering `FAULT` is a `raise`, which writes the status registers alone, and leaving it is a reset. -/
theorem faultIsPrecise : Obligations.FaultIsPrecise := by
  refine ⟨fun s t hstep hs ht => ?_, fun s t hstep hs => ?_⟩
  · obtain ⟨r, hr, heq⟩ := eq_raise_of_step_enters_fault hstep hs ht
    rw [heq]
    exact ⟨hr, s.sameProgram_raise r, ⟨rfl, rfl, rfl⟩, rfl, rfl, ⟨rfl, rfl⟩⟩
  · obtain ⟨hrst, rfl⟩ := reset_of_step_from_fault hstep hs
    exact ⟨hrst, s.resetCore_phase, s.resetCore_faultReason⟩

/-! ### The exit status -/

/-- U1: all that is known of `EXIT_MALFORMED`, whatever the draw behind it. -/
theorem exitMalformed_ne_zero : Config.exitMalformed ≠ 0 := by
  unfold Config.exitMalformed
  split
  next => decide
  next hdraw => exact hdraw

theorem State.exitStatus_of_halted (h : s.phase = .halted) : s.exitStatus = some 0 := by
  simp [State.exitStatus, h]

theorem State.exitStatus_of_malformed (h : s.phase = .malformed) : s.exitStatus = some Config.exitMalformed := by
  simp [State.exitStatus, h]

theorem State.exitStatus_of_not_ended (h : s.phase = .idle ∨ s.phase = .run ∨ s.phase = .fault) :
    s.exitStatus = none := by
  rcases h with h | h | h <;> simp [State.exitStatus, h]

/-- Settles O55: the status of a malformed program is `EXIT_MALFORMED`, which is not 0 whatever its value. -/
theorem exitStatusFollowsPhase : Obligations.ExitStatusFollowsPhase := fun _ =>
  ⟨State.exitStatus_of_halted,
    fun h => ⟨Config.exitMalformed, exitMalformed_ne_zero, State.exitStatus_of_malformed h⟩,
    State.exitStatus_of_not_ended⟩

end Sys2Proof.Machine

/-! Reset (R138) and the input request it abandons (R132). -/

namespace Sys2Proof.Machine

variable {s : State}

/-- R132: a raised `rst` goes before all else, so no phase, presented source or fetched word plays a part. -/
theorem step_eq_resetCore_of_rst (h : s.rst = true) : step s = .next s.resetCore := by
  rw [step, cycle, if_pos h]

@[simp] theorem State.resetCore_tape (s : State) : s.resetCore.tape = Tape.blank := rfl

/-- R108: only a running core raises the input request. -/
theorem State.inReq_eq_false_of_phase_ne_run (h : s.phase ≠ .run) : s.inReq = false := by
  simp [State.inReq, h]

/-- R121: a core that raises no input request waits for no answer. -/
theorem State.blocked_eq_false_of_inReq_eq_false (h : s.inReq = false) : s.blocked = false := by
  simp [State.blocked, h]

/-- Settles O13: the step is `resetCore`, whose tape is blank, and the `IDLE` phase it leaves raises no request. -/
theorem resetDiscardsAllState : Obligations.ResetDiscardsAllState := by
  intro s hrst
  have hcells (i : Int) : s.resetCore.tape.read i = 0#8 := by
    rw [State.resetCore_tape, Tape.read_blank]
  have hreq : s.resetCore.inReq = false :=
    State.inReq_eq_false_of_phase_ne_run (by rw [State.resetCore_phase]; decide)
  exact ⟨s.resetCore, step_eq_resetCore_of_rst hrst, s.resetCore_phase, s.resetCore_faultReason,
    rfl, rfl, rfl, rfl, rfl, rfl, rfl, hcells, hreq, State.blocked_eq_false_of_inReq_eq_false hreq⟩

end Sys2Proof.Machine

/-! Programs and their words (R42, R61, R66), and the words a sanitized stream holds (R67, R82). -/

namespace Sys2Proof

open Sys2Proof.Machine

/-- R66: the two directions of the decoder's table in one. -/
theorem decode_eq_op_iff {w : Word} {i : Instr} : decode w = .op i ↔ w = encode i :=
  ⟨eq_encode_of_decode, fun h => h ▸ decode_encode i⟩

/-- Settles O2: the decoder inverts the encoder, and answers an instruction for no word but that instruction's. -/
theorem decodeInvertsEncodeExactly : Obligations.DecodeInvertsEncodeExactly :=
  fun _ _ => decode_eq_op_iff

/-! ### Programs -/

/-- A stream that starts with an instruction's word decodes to that instruction and what the rest decodes to. -/
theorem decodeProgram_encode_cons (i : Instr) (ws : List Word) :
    decodeProgram (encode i :: ws) = (decodeProgram ws).map (i :: ·) := by
  rw [decodeProgram, decode_encode]
  cases decodeProgram ws <;> rfl

theorem decodeProgram_encodeProgram (p : List Instr) : decodeProgram (encodeProgram p) = some p := by
  induction p with
  | nil => rfl
  | cons i p ih =>
    calc decodeProgram (encodeProgram (i :: p))
      _ = (decodeProgram (encodeProgram p)).map (i :: ·) := decodeProgram_encode_cons i (encodeProgram p)
      _ = some (i :: p) := by rw [ih, Option.map_some]

/-- A stream of instruction words is the words of some program. -/
theorem exists_encodeProgram_eq {ws : List Word} (h : ∀ w ∈ ws, ∃ i, w = encode i) : ∃ p, encodeProgram p = ws := by
  have hrange : ws ∈ Set.range (List.map encode) := by
    rw [Set.range_list_map]
    exact fun w hw => (h w hw).imp fun i hi => hi.symm
  exact hrange

theorem sanitize_encodeProgram (p : List Instr) : sanitize (encodeProgram p) = encodeProgram p := by
  refine sanitize_eq_self fun w hw => ?_
  obtain ⟨i, -, rfl⟩ := List.mem_map.1 hw
  exact mem_alpha.2 ⟨i, rfl⟩

/-- R67, R80: the sanitizer keeps instruction words alone. -/
theorem exists_encode_of_mem_sanitize {src : List Byte} {w : Word} (h : w ∈ sanitize src) : ∃ i, w = encode i :=
  mem_alpha.1 (mem_sanitize.1 h).2

/-- Settles O3: a program's words are in `ALPHA` and decode one by one; a sanitized source is a program's words, so the
first half says what it decodes to. -/
theorem programWordsRoundTrip : Obligations.ProgramWordsRoundTrip := by
  refine ⟨fun p => ⟨decodeProgram_encodeProgram p, sanitize_encodeProgram p⟩, fun src => ?_⟩
  obtain ⟨p, hp⟩ := exists_encodeProgram_eq fun w (hw : w ∈ sanitize src) => exists_encode_of_mem_sanitize hw
  exact ⟨p, hp ▸ decodeProgram_encodeProgram p, hp⟩

/-! ### Bytes the sanitizer drops -/

/-- R62: the instruction words are ASCII codes. -/
theorem toNat_encode_lt (i : Instr) : (encode i).toNat < 0x80 := by
  cases i <;> decide

theorem toNat_lt_of_mem_alpha {b : Byte} (h : b ∈ alpha) : b.toNat < 0x80 := by
  obtain ⟨i, rfl⟩ := mem_alpha.1 h
  exact toNat_encode_lt i

/-- Settles O6: the two filters in a row are the second alone, as what it keeps is ASCII. -/
theorem sanitizerIgnoresNonAsciiBytes : Obligations.SanitizerIgnoresNonAsciiBytes := by
  intro src
  simp only [sanitize, List.filter_filter]
  refine List.filter_congr fun b _ => ?_
  rw [Bool.and_eq_left_iff_imp]
  exact fun hb => decide_eq_true (toNat_lt_of_mem_alpha (List.contains_iff_mem.1 hb))

end Sys2Proof

/-! The jump-table builder: which streams it accepts (R12, R86, R87), and how the pairs of its table lie in the stream
(R88, R92). -/

namespace Sys2Proof.Machine

/-! ### Which streams the builder accepts -/

/-- Settles O9: the loop's refusal, from an empty stack. -/
theorem builderRefusesExactlyUnmatched : Obligations.BuilderRefusesExactlyUnmatched := by
  intro ws
  rw [buildJumpTable, buildFrom_eq_none]
  simp only [List.length_nil, Nat.zero_add]

/-- The loop and the depth reading of R12 agree from any stack: its height is the number of open brackets. -/
theorem isSome_buildFrom_encodeProgram (p : List Instr) (k : Nat) (stack : List Nat) (jt : List (Option Nat)) :
    (buildFrom (encodeProgram p) k stack jt).isSome = closesFrom stack.length p := by
  induction p generalizing k stack jt with
  | nil => cases stack <;> rfl
  | cons i p ih =>
    cases i with
    | jz => exact ih (k + 1) (k :: stack) jt
    | jnz =>
      cases stack with
      | nil => rfl
      | cons j stack => exact ih (k + 1) stack (recordPair jt j k)
    | inc | dec | right | left | out | inp => exact ih (k + 1) stack jt

/-- Settles O10: the agreement of the two, where nothing is open yet. -/
theorem builderAcceptsExactlyWellFormed : Obligations.BuilderAcceptsExactlyWellFormed :=
  fun p => isSome_buildFrom_encodeProgram p 0 [] _

/-! ### How the pairs lie -/

section Pairs

variable {ws : List Word} {jt : List (Option Nat)} {o c : Nat}

/-- The entry of a `[` closes a balanced block. -/
theorem LoopInv.blockPair_of_open (h : LoopInv ws ws.length [] jt) (hopen : ws[o]? = some 0x5B#8)
    (hentry : entry jt o = some c) : BlockPair ws jt o c := by
  have hlt : o < ws.length := (List.getElem?_eq_some_iff.1 hopen).1
  obtain ⟨c', -, hblock⟩ := (h.opened o hlt hopen).resolve_left List.not_mem_nil
  obtain rfl : c' = c := Option.some.inj (hblock.pair.forth.symm.trans hentry)
  exact hblock

/-- The entry of a `]` opens a balanced block. -/
theorem LoopInv.blockPair_of_close (h : LoopInv ws ws.length [] jt) (hclose : ws[c]? = some 0x5D#8)
    (hentry : entry jt c = some o) : BlockPair ws jt o c := by
  have hlt : c < ws.length := (List.getElem?_eq_some_iff.1 hclose).1
  obtain ⟨o', hblock⟩ := h.closed c hlt hclose
  obtain rfl : o' = o := Option.some.inj (hblock.pair.back.symm.trans hentry)
  exact hblock

/-- A block that opens inside another closes inside it: past the outer `]` the depth is too low. -/
theorem BlockPair.closes_inside {o' c' : Nat} (h : BlockPair ws jt o c) (h' : BlockPair ws jt o' c') (hlt : o < o')
    (hin : o' ≤ c) : c' < c := by
  have hne : c' ≠ c := by
    rintro rfl
    have := Option.some.inj (h.pair.back.symm.trans h'.pair.back)
    omega
  by_contra hnot
  have hinner : depth ws o' + 1 ≤ depth ws (c + 1) := h'.within (c + 1) (by omega) (by omega)
  have houter : depth ws o + 1 ≤ depth ws o' := h.within o' hlt hin
  have hends : depth ws (c + 1) = depth ws o := h.ends
  omega

/-- Settles O8: a pair that opens at or before the `]` of an earlier one lies inside it. -/
theorem builderPairsNestProperly : Obligations.BuilderPairsNestProperly := by
  intro ws jt hbuild o c o' c' hpair hpair' hlt
  have hloop := buildJumpTable_loopInv hbuild
  have hblock := hloop.blockPair_of_open hpair.opens hpair.forth
  have hblock' := hloop.blockPair_of_open hpair'.opens hpair'.forth
  exact (Nat.lt_or_ge c o').imp_right fun hin => hblock.closes_inside hblock' hlt hin

theorem count_take_add_countIn (w : Word) (ws : List Word) {o c : Nat} (h : o ≤ c) :
    (ws.take o).count w + countIn w ws o c = (ws.take (c + 1)).count w := by
  rw [countIn, ← List.count_append, ← List.take_add, Nat.add_sub_cancel' (by omega)]

/-- As many `]` as `[` in a range of words: the depth is the same at its two ends. -/
theorem countIn_eq_iff_depth_eq (h : o ≤ c) :
    countIn 0x5D#8 ws o c = countIn 0x5B#8 ws o c ↔ depth ws (c + 1) = depth ws o := by
  have hopen := count_take_add_countIn 0x5B#8 ws h
  have hclose := count_take_add_countIn 0x5D#8 ws h
  simp only [depth]
  omega

theorem BlockPair.countIn_eq (h : BlockPair ws jt o c) : countIn 0x5D#8 ws o c = countIn 0x5B#8 ws o c :=
  (countIn_eq_iff_depth_eq h.pair.before.le).2 h.ends

/-- No shorter range from the `[` is balanced: the depth has not come back. -/
theorem BlockPair.countIn_ne_of_lt_close (h : BlockPair ws jt o c) {k : Nat} (hok : o < k) (hkc : k < c) :
    countIn 0x5D#8 ws o k ≠ countIn 0x5B#8 ws o k := by
  rw [ne_eq, countIn_eq_iff_depth_eq hok.le]
  have := h.within (k + 1) (by omega) (by omega)
  omega

/-- No shorter range to the `]` is balanced: the depth has not fallen so far. -/
theorem BlockPair.countIn_ne_of_open_lt (h : BlockPair ws jt o c) {k : Nat} (hok : o < k) (hkc : k < c) :
    countIn 0x5D#8 ws k c ≠ countIn 0x5B#8 ws k c := by
  rw [ne_eq, countIn_eq_iff_depth_eq hkc.le, h.ends]
  have := h.within k hok hkc.le
  omega

end Pairs

/-- Settles O11: the two brackets of an entry are the ends of a block that is balanced and has no balanced part at
either end. -/
theorem jumpTableAgreesWithRescan : Obligations.JumpTableAgreesWithRescan := by
  intro ws jt hbuild
  have hloop := buildJumpTable_loopInv hbuild
  refine ⟨fun o c hopen hentry => ?_, fun o c hclose hentry => ?_⟩
  · have hblock := hloop.blockPair_of_open hopen hentry
    exact ⟨hblock.pair.before, hblock.countIn_eq, fun k => hblock.countIn_ne_of_lt_close⟩
  · have hblock := hloop.blockPair_of_close hclose hentry
    exact ⟨hblock.pair.before, hblock.countIn_eq, fun k => hblock.countIn_ne_of_open_lt⟩

end Sys2Proof.Machine

/-! The step by phase: what a step does in each (R16, R67, R75, R128, R137), and what it leaves of the host's side of
the ports (assumptions 3, 5 and 6). -/

namespace Sys2Proof.Machine

variable {s t : State}

/-- Settles O12: `State.reset` holds the values of R37 as they stand, and its program has no index. -/
theorem resetStateHoldsListedValues : Obligations.ResetStateHoldsListedValues :=
  ⟨rfl, rfl, fun _ => if_neg (Nat.not_lt_zero _), rfl, fun _ => rfl, rfl, rfl, rfl, rfl, rfl⟩

/-! ### What an instruction answers -/

/-- Every effect is what the instruction answers: the converse of `exec_effect`. -/
theorem Effect.exec_eq {i : Instr} (h : Effect s i t) : exec i s = .next t := by
  cases h with
  | inc hcell | dec hcell => exact (withCell_of_hasCell hcell _).trans (storeCell_of_hasCell hcell _)
  | right hno | left hno => exact movePointer_completes rfl hno
  | rightFull hover | leftFull hover => exact movePointer_overflows hover
  | out hcell => exact execOut_of_hasCell hcell
  | inpWait hwait => simp [exec, execIn, hwait]
  | inpTake a rest ha hcell =>
    have htaken : (s.inTake a rest).hasCell (s.inTake a rest).dp = true := hcell
    exact (execIn_of_answer ha).trans (storeCell_of_hasCell htaken _)
  | jzTaken k hcell hzero hk => exact (execJz_of_zero hcell hzero).trans (jump_taken hk)
  | jzFall hcell hne => exact (execJz_of_ne_zero hcell hne).trans (jump_not_taken s)
  | jnzTaken k hcell hne hk => exact (execJnz_of_ne_zero hcell hne).trans (jump_taken hk)
  | jnzFall hcell hzero => exact (execJnz_of_zero hcell hzero).trans (jump_not_taken s)

/-! ### The step of a running core -/

/-- R75: a running core's step is the instruction step. -/
theorem step_of_stepping (h : s.stepping) : step s = instructionStep s := by
  obtain ⟨hphase, hrst⟩ := h
  simp [step, cycle, hphase, hrst]

theorem step_of_decoded {w : Word} {i : Instr} (h : s.stepping) (hw : s.iread s.ip = some w) (hop : decode w = .op i) :
    step s = exec i s := by
  simp [step_of_stepping h, instructionStep, hw, hop]

/-- Settles O16: nothing stands around the meaning of the decoded instruction. -/
theorem stepRunsDecodedInstruction : Obligations.StepRunsDecodedInstruction := fun _ _ _ => step_of_decoded

theorem step_of_illegal {w : Word} (h : s.stepping) (hw : s.iread s.ip = some w) (hill : decode w = .illegal) :
    step s = .next (s.raise .illegalWord) := by
  simp [step_of_stepping h, instructionStep, hw, hill]

/-- Settles O17: a word that is no instruction's is illegal, and a sanitized stream holds instruction words alone. -/
theorem illegalWordRaisesFault : Obligations.IllegalWordRaisesFault :=
  ⟨fun _ _ hrun hw hnone => step_of_illegal hrun hw (decode_eq_illegal hnone), fun _ _ => exists_encode_of_mem_sanitize⟩

/-! ### The step in the other phases -/

theorem step_of_fault (hphase : s.phase = .fault) (hrst : s.rst = false) :
    step s = .fault (.inFaultPhase s.faultReason) := by
  simp [step, cycle, hphase, hrst]

/-- Settles O19: the step in `FAULT` stops the model. -/
theorem faultPhaseStopsTheModel : Obligations.FaultPhaseStopsTheModel := fun _ => step_of_fault

/-- Settles O20, for each of the three codes. -/
theorem reservedPhaseIsRefused : Obligations.ReservedPhaseIsRefused := by
  intro s hrst hphase
  rcases hphase with h | h | h <;> simp [step, cycle, h, hrst]

theorem step_of_ended (hphase : s.phase = .halted ∨ s.phase = .malformed) (hrst : s.rst = false) :
    step s = .next s := by
  rcases hphase with h | h <;> simp [step, cycle, h, hrst]

/-- Settles O22: an ended core does nothing, and an idle one needs a source. -/
theorem idleAndEndedCoreDoesNothing : Obligations.IdleAndEndedCoreDoesNothing := by
  intro s hrst hphase
  rcases hphase with hhalt | hmal | ⟨hidle, hport⟩
  · exact step_of_ended (.inl hhalt) hrst
  · exact step_of_ended (.inr hmal) hrst
  · exact step_of_no_source hidle hrst hport

/-! ### The host's side of the ports -/

/-- A load writes the core alone: not the record, the answers, the capacities or `rst`. -/
theorem State.load_keeps_io_cap_rst (s : State) (src : List Byte) :
    s.sameIo (s.load src) ∧ (s.load src).cap = s.cap ∧ (s.load src).rst = s.rst := by
  rcases s.load_cases src with ⟨-, hload⟩ | ⟨-, -, hload⟩ | ⟨jt, -, -, hload⟩ <;> rw [hload] <;>
    exact ⟨⟨rfl, rfl⟩, rfl, rfl⟩

/-- No instruction writes the capacities, `rst` or the load port. -/
theorem Effect.keeps_cap_rst_loadPort {i : Instr} (h : Effect s i t) :
    t.cap = s.cap ∧ t.rst = s.rst ∧ t.loadPort = s.loadPort := by
  cases h <;> exact ⟨rfl, rfl, rfl⟩

/-- Settles O59: the reset is `resetCore`, and no other kind of step writes `rst` or the capacities. -/
theorem resetTakesEventAndKeepsHostSide : Obligations.ResetTakesEventAndKeepsHostSide := by
  refine ⟨fun s hrst => ⟨s.resetCore, step_eq_resetCore_of_rst hrst, rfl, rfl, rfl, rfl, rfl⟩, fun s t hstep hrst => ?_⟩
  cases step_kind hstep with
  | reset hraised _ => simp [hrst] at hraised
  | load src _ _ _ ht =>
    obtain ⟨-, hcap, hkeep⟩ := s.load_keeps_io_cap_rst src
    exact ht ▸ ⟨hkeep.trans hrst, hcap⟩
  | nothing _ _ ht => exact ⟨ht ▸ hrst, ht ▸ rfl⟩
  | illegal w _ _ _ ht => exact ht ▸ ⟨hrst, rfl⟩
  | instr w i _ _ _ heffect =>
    obtain ⟨hcap, hkeep, -⟩ := heffect.keeps_cap_rst_loadPort
    exact ⟨hkeep.trans hrst, hcap⟩

/-- Settles O60: the load step empties the port, and of the kinds of step only a load writes it. -/
theorem acceptedSourceIsLoadedOnce : Obligations.AcceptedSourceIsLoadedOnce := by
  refine ⟨fun s src hidle hrst hport => ?_, fun s t hstep hnoload => ?_⟩
  · obtain ⟨hio, hcap, hkeep⟩ := s.load_keeps_io_cap_rst src
    exact ⟨_, step_of_source hidle hrst hport, rfl, hkeep.trans hrst, hio, hcap⟩
  · cases step_kind hstep with
    | reset _ ht => exact ht ▸ rfl
    | load src hrst hidle hport _ => simp [hrst, hidle, hport] at hnoload
    | nothing _ _ ht => exact ht ▸ rfl
    | illegal w _ _ _ ht => exact ht ▸ rfl
    | instr w i _ _ _ heffect =>
      obtain ⟨-, -, hkeep⟩ := heffect.keeps_cap_rst_loadPort
      exact hkeep

end Sys2Proof.Machine

/-! The tape: its cells and their form (R57, assumption 7), what an instruction can do to it and to its pointers (R98,
R101), and what follows for the extent (R103, R104) and from it (R34). -/

namespace Sys2Proof.Machine

/-! ### Cells and their form -/

/-- Settles O26: the law of the tape's cells. -/
theorem tapeReadAfterWrite : Obligations.TapeReadAfterWrite := Tape.read_write

theorem Memory.wfFrom_cons {l k : Nat} {b : Byte} {rest : Memory} :
    Memory.wfFrom l ((k, b) :: rest) = true ↔ l ≤ k ∧ b ≠ 0#8 ∧ Memory.wfFrom (k + 1) rest = true := by
  simp [Memory.wfFrom, and_assoc]

@[simp] theorem Memory.read_cons_same (k : Nat) (b : Byte) (rest : Memory) : Memory.read k ((k, b) :: rest) = b :=
  if_pos rfl

theorem Memory.read_cons_of_ne {a k : Nat} (h : a ≠ k) (b : Byte) (rest : Memory) :
    Memory.read a ((k, b) :: rest) = Memory.read a rest := if_neg h

/-- A canonical memory that reads at `k` as one with a first entry for `k` has its own first key at `k` or below. -/
theorem Memory.key_le_of_read_eq {k k' l' : Nat} {b b' : Byte} {rest rest' : Memory} (hb : b ≠ 0#8)
    (hwf' : Memory.wfFrom l' ((k', b') :: rest') = true)
    (hread : Memory.read k ((k, b) :: rest) = Memory.read k ((k', b') :: rest')) : k' ≤ k := by
  obtain ⟨-, hb', hrest'⟩ := Memory.wfFrom_cons.1 hwf'
  by_contra hlt
  have hfrom : Memory.wfFrom k' ((k', b') :: rest') = true := Memory.wfFrom_cons.2 ⟨Nat.le_refl k', hb', hrest'⟩
  rw [Memory.read_cons_same, Memory.read_below hfrom (Nat.lt_of_not_le hlt)] at hread
  exact hb hread

/-- Canonical memories that read the same everywhere are equal. -/
theorem Memory.eq_of_read_eq {m m' : Memory} {l l' : Nat} (hwf : Memory.wfFrom l m = true)
    (hwf' : Memory.wfFrom l' m' = true) (hread : ∀ a, Memory.read a m = Memory.read a m') : m = m' := by
  induction m generalizing l l' m' with
  | nil =>
    cases m' with
    | nil => rfl
    | cons c' rest' =>
      obtain ⟨k', b'⟩ := c'
      exact absurd ((hread k').trans (Memory.read_cons_same k' b' rest')).symm (Memory.wfFrom_cons.1 hwf').2.1
  | cons c rest ih =>
    obtain ⟨k, b⟩ := c
    obtain ⟨-, hb, hrest⟩ := Memory.wfFrom_cons.1 hwf
    cases m' with
    | nil => exact absurd ((Memory.read_cons_same k b rest).symm.trans (hread k)) hb
    | cons c' rest' =>
      obtain ⟨k', b'⟩ := c'
      obtain ⟨-, hb', hrest'⟩ := Memory.wfFrom_cons.1 hwf'
      obtain rfl : k = k' :=
        Nat.le_antisymm (Memory.key_le_of_read_eq hb' hwf (hread k').symm) (Memory.key_le_of_read_eq hb hwf' (hread k))
      obtain rfl : b = b' := by simpa using hread k
      have htail (a : Nat) : Memory.read a rest = Memory.read a rest' := by
        by_cases ha : a = k
        · rw [Memory.read_below hrest (by omega), Memory.read_below hrest' (by omega)]
        · simpa [Memory.read_cons_of_ne ha] using hread a
      rw [ih hrest hrest' htail]

theorem Tape.wf_iff {t : Tape} : t.wf = true ↔ t.right.wf = true ∧ t.left.wf = true := by
  simp [Tape.wf]

theorem Tape.wf_write {t : Tape} (h : t.wf = true) (i : Int) (v : Byte) : (t.write i v).wf = true := by
  obtain ⟨hright, hleft⟩ := Tape.wf_iff.1 h
  cases i with
  | ofNat k => exact Tape.wf_iff.2 ⟨Memory.wf_write k v hright, hleft⟩
  | negSucc k => exact Tape.wf_iff.2 ⟨hright, Memory.wf_write k v hleft⟩

theorem Tape.eq_of_read_eq {t u : Tape} (ht : t.wf = true) (hu : u.wf = true) (h : ∀ i, t.read i = u.read i) :
    t = u := by
  obtain ⟨htr, htl⟩ := Tape.wf_iff.1 ht
  obtain ⟨hur, hul⟩ := Tape.wf_iff.1 hu
  have hright : t.right = u.right := Memory.eq_of_read_eq htr hur fun k => h (Int.ofNat k)
  have hleft : t.left = u.left := Memory.eq_of_read_eq htl hul fun k => h (Int.negSucc k)
  cases t
  cases u
  exact congrArg₂ Tape.mk hright hleft

/-- Settles O27: the form is that of the two half-tapes. -/
theorem tapeFormIsCanonical : Obligations.TapeFormIsCanonical :=
  ⟨fun _ i v h => Tape.wf_write h i v, fun _ _ => Tape.eq_of_read_eq⟩

/-! ### The pointer machine -/

section PointerMachine

variable {cap : Option Nat} {dp lo hi : Int}

/-- Settles O33: the four rows of R98, each move inside the extent or past its end. -/
theorem pointerMachineTransitions : Obligations.PointerMachineTransitions := by
  intro cap dp lo hi _ _
  refine ⟨pointerMachine_right_inside, pointerMachine_left_inside, fun hroom => ?_⟩
  have hfull : tapeFull cap lo hi = false := by
    refine tapeFull_eq_false.2 fun c hc => ?_
    have := hroom c hc
    omega
  refine ⟨fun hend => ?_, fun hend => ?_⟩
  · rw [pointerMachine_right_grows (by omega) hfull, hend]
  · rw [pointerMachine_left_grows (by omega) hfull, hend]

theorem tapeFull_of_right_no_overflow (hcross : hi < dp + 1)
    (h : (pointerMachine cap .right dp lo hi).overflow = false) : tapeFull cap lo hi = false :=
  Bool.eq_false_iff.2 fun hfull => Bool.eq_false_iff.1 h (pointerMachine_right_overflow_iff.2 ⟨hfull, hcross⟩)

theorem tapeFull_of_left_no_overflow (hcross : dp - 1 < lo)
    (h : (pointerMachine cap .left dp lo hi).overflow = false) : tapeFull cap lo hi = false :=
  Bool.eq_false_iff.2 fun hfull => Bool.eq_false_iff.1 h (pointerMachine_left_overflow_iff.2 ⟨hfull, hcross⟩)

end PointerMachine

/-! ### What an instruction can do to the tape and its pointers -/

variable {s t : State}

/-- All that an instruction can do to the tape, the pointer and the extent: nothing, a store to the current cell, a move
inside the extent, or a move past an end of it, which adds one zero cell. -/
inductive TapeChange (s t : State) : Prop
  | untouched : s.samePointer t → t.tape = s.tape → TapeChange s t
  | stored (v : Byte) : s.samePointer t → t.tape = s.tape.write s.dp v → TapeChange s t
  | movedRight : s.dp + 1 ≤ s.hi → t.dp = s.dp + 1 → t.lo = s.lo → t.hi = s.hi → t.tape = s.tape → TapeChange s t
  | movedLeft : s.lo ≤ s.dp - 1 → t.dp = s.dp - 1 → t.lo = s.lo → t.hi = s.hi → t.tape = s.tape → TapeChange s t
  | grewRight : s.hi < s.dp + 1 → tapeFull s.cap.tape s.lo s.hi = false → t.dp = s.dp + 1 → t.lo = s.lo →
      t.hi = s.dp + 1 → t.tape = s.tape.write (s.dp + 1) 0#8 → TapeChange s t
  | grewLeft : s.dp - 1 < s.lo → tapeFull s.cap.tape s.lo s.hi = false → t.dp = s.dp - 1 → t.lo = s.dp - 1 →
      t.hi = s.hi → t.tape = s.tape.write (s.dp - 1) 0#8 → TapeChange s t

theorem Effect.tapeChange {i : Instr} (h : Effect s i t) : TapeChange s t := by
  cases h with
  | inc | dec | inpTake => exact .stored _ ⟨rfl, rfl, rfl⟩ rfl
  | rightFull | leftFull | out | inpWait | jzTaken | jzFall | jnzTaken | jnzFall => exact .untouched ⟨rfl, rfl, rfl⟩ rfl
  | right hno =>
    by_cases hcross : s.hi < s.dp + 1
    · rw [pointerMachine_right_of_no_overflow hcross hno]
      exact .grewRight hcross (tapeFull_of_right_no_overflow hcross hno) rfl rfl rfl rfl
    · rw [pointerMachine_right_inside (Int.not_lt.1 hcross)]
      exact .movedRight (Int.not_lt.1 hcross) rfl rfl rfl rfl
  | left hno =>
    by_cases hcross : s.dp - 1 < s.lo
    · rw [pointerMachine_left_of_no_overflow hcross hno]
      exact .grewLeft hcross (tapeFull_of_left_no_overflow hcross hno) rfl rfl rfl rfl
    · rw [pointerMachine_left_inside (Int.not_lt.1 hcross)]
      exact .movedLeft (Int.not_lt.1 hcross) rfl rfl rfl rfl

/-- Outside reset and load a step changes the tape as an instruction can, or not at all. -/
theorem step_tapeChange (hstep : step s = .next t) (hrst : s.rst = false) (hphase : s.phase ≠ .idle) :
    TapeChange s t := by
  cases step_kind hstep with
  | reset hraised _ => simp [hrst] at hraised
  | load src _ hidle _ _ => exact absurd hidle hphase
  | nothing _ _ ht => exact ht ▸ .untouched ⟨rfl, rfl, rfl⟩ rfl
  | illegal w _ _ _ ht => exact ht ▸ .untouched ⟨rfl, rfl, rfl⟩ rfl
  | instr w i _ _ _ heffect => exact heffect.tapeChange

theorem TapeChange.extent_le (h : TapeChange s t) : t.lo ≤ s.lo ∧ s.hi ≤ t.hi := by
  cases h with
  | untouched hpointer _ | stored _ hpointer _ =>
    obtain ⟨-, hlo, hhi⟩ := hpointer
    omega
  | movedRight _ _ hlo hhi | movedLeft _ _ hlo hhi | grewRight _ _ _ hlo hhi | grewLeft _ _ _ hlo hhi => omega

/-- R48: the cell a move adds lies outside the old extent, so within it only the current cell can change. -/
theorem TapeChange.read_of_mem_extent (h : TapeChange s t) {j : Int} (hlo : s.lo ≤ j) (hhi : j ≤ s.hi)
    (hne : j ≠ s.dp) : t.tape.read j = s.tape.read j := by
  cases h with
  | untouched _ htape | movedRight _ _ _ _ htape | movedLeft _ _ _ _ htape => rw [htape]
  | stored v _ htape => rw [htape, Tape.read_write_of_ne _ v hne]
  | grewRight _ _ _ _ _ htape | grewLeft _ _ _ _ _ htape => rw [htape, Tape.read_write_of_ne _ 0#8 (by omega)]

/-- Settles O38, by the changes a step can make to the tape. -/
theorem extentNeverShrinks : Obligations.ExtentNeverShrinks := by
  intro s t hstep hrst hphase
  have hchange := step_tapeChange hstep hrst hphase
  obtain ⟨hlo, hhi⟩ := hchange.extent_le
  exact ⟨hlo, hhi, fun j => hchange.read_of_mem_extent⟩

/-! ### The extent along a run -/

/-- R101: from a pointer inside its extent, the new extent is the old one and the new pointer. -/
theorem TapeChange.mem_extent_iff (h : TapeChange s t) (hs : s.lo ≤ s.dp ∧ s.dp ≤ s.hi) (i : Int) :
    (t.lo ≤ i ∧ i ≤ t.hi) ↔ (s.lo ≤ i ∧ i ≤ s.hi) ∨ t.dp = i := by
  cases h with
  | untouched hpointer _ | stored _ hpointer _ =>
    obtain ⟨hdp, hlo, hhi⟩ := hpointer
    omega
  | movedRight _ hdp hlo hhi | movedLeft _ hdp hlo hhi | grewRight _ _ hdp hlo hhi | grewLeft _ _ hdp hlo hhi => omega

theorem TapeChange.pointer_mem_extent (h : TapeChange s t) (hs : s.lo ≤ s.dp ∧ s.dp ≤ s.hi) :
    t.lo ≤ t.dp ∧ t.dp ≤ t.hi :=
  (h.mem_extent_iff hs t.dp).2 (.inr rfl)

/-- Along a run the pointer stays inside the extent, and the extent is the indices it has held. -/
theorem extent_of_run {f : Nat → State} {k : Nat} (hlo : (f 0).lo = (f 0).dp) (hhi : (f 0).hi = (f 0).dp)
    (hrun : ∀ j, j < k → (f j).stepping ∧ step (f j) = .next (f (j + 1))) :
    ((f k).lo ≤ (f k).dp ∧ (f k).dp ≤ (f k).hi)
      ∧ ∀ i : Int, ((f k).lo ≤ i ∧ i ≤ (f k).hi) ↔ ∃ j, j ≤ k ∧ (f j).dp = i := by
  induction k with
  | zero =>
    refine ⟨by omega, fun i => ?_⟩
    simp only [Nat.le_zero, exists_eq_left]
    omega
  | succ k ih =>
    obtain ⟨hpointer, hvisited⟩ := ih fun j hj => hrun j (by omega)
    obtain ⟨⟨hphase, hrst⟩, hstep⟩ := hrun k (by omega)
    have hchange := step_tapeChange hstep hrst (by simp [hphase])
    refine ⟨hchange.pointer_mem_extent hpointer, fun i => ?_⟩
    simp only [hchange.mem_extent_iff hpointer i, hvisited i, Nat.le_succ_iff, or_and_right, exists_or, exists_eq_left]

/-- Settles O39: the pointer stays inside its extent, so every step adds the new pointer to it and nothing else. -/
theorem extentIsExactlyTheVisitedRange : Obligations.ExtentIsExactlyTheVisitedRange :=
  fun _ _ hlo hhi hrun => (extent_of_run hlo hhi hrun).2

/-! ### Results without the extent -/

theorem State.TapeInv.hasCell (h : s.TapeInv) : s.hasCell s.dp = true := State.hasCell_iff.2 h.pointer

/-- R25: a cell outside the extent holds 0, so writing 0 to it is no change of the cells. -/
theorem State.TapeInv.read_write_zero (h : s.TapeInv) {i : Int} (hi : ¬(s.lo ≤ i ∧ i ≤ s.hi)) (j : Int) :
    (s.tape.write i 0#8).read j = s.tape.read j := by
  rw [Tape.read_write]
  split
  next hj =>
    subst hj
    by_contra hne
    exact hi (h.storage j (Ne.symm hne))
  next => rfl

/-- The pointer a move leads to. -/
def Move.target : Move → Int → Int
  | .right, dp => dp + 1
  | .left, dp => dp - 1

/-- Without a capacity a move completes, and its target and the cells it leaves do not depend on the extent. -/
theorem movePointer_of_no_cap (hcap : s.cap.tape = none) (h : s.TapeInv) (m : Move) :
    ∃ p : PointerOut, movePointer m s = .next ((s.setPointer p).retire (s.ip + 1)) ∧ p.dp = m.target s.dp
      ∧ ∀ j, (s.setPointer p).tape.read j = s.tape.read j := by
  have hroom : tapeFull s.cap.tape s.lo s.hi = false := by rw [hcap]; rfl
  cases m with
  | right =>
    by_cases hcross : s.hi < s.dp + 1
    · exact ⟨_, movePointer_completes (pointerMachine_right_grows hcross hroom) rfl, rfl,
        h.read_write_zero fun hin => absurd hin.2 (Int.not_le.2 hcross)⟩
    · exact ⟨_, movePointer_completes (pointerMachine_right_inside (Int.not_lt.1 hcross)) rfl, rfl, fun _ => rfl⟩
  | left =>
    by_cases hcross : s.dp - 1 < s.lo
    · exact ⟨_, movePointer_completes (pointerMachine_left_grows hcross hroom) rfl, rfl,
        h.read_write_zero fun hin => absurd hin.1 (Int.not_le.2 hcross)⟩
    · exact ⟨_, movePointer_completes (pointerMachine_left_inside (Int.not_lt.1 hcross)) rfl, rfl, fun _ => rfl⟩

/-- Two states agree on all that R34 calls the result of an instruction. -/
def State.sameResult (t u : State) : Prop :=
  u.ip = t.ip ∧ u.dp = t.dp ∧ u.phase = t.phase ∧ u.faultReason = t.faultReason
    ∧ u.events = t.events ∧ u.answers = t.answers ∧ ∀ j, u.tape.read j = t.tape.read j

section Extent

variable {lo hi : Int}

/-- R34 for the moves. -/
theorem movePointer_sameResult (hcap : s.cap.tape = none) (hs : s.TapeInv)
    (hs' : ({ s with lo := lo, hi := hi } : State).TapeInv) {m : Move} (h : movePointer m s = .next t) :
    ∃ u, movePointer m { s with lo := lo, hi := hi } = .next u ∧ t.sameResult u := by
  obtain ⟨p, hp, hdp, hcells⟩ := movePointer_of_no_cap hcap hs m
  obtain ⟨p', hp', hdp', hcells'⟩ :=
    movePointer_of_no_cap (s := { s with lo := lo, hi := hi }) hcap hs' m
  cases hp.symm.trans h
  exact ⟨_, hp', rfl, hdp'.trans hdp.symm, rfl, rfl, rfl, rfl, fun j => (hcells' j).trans (hcells j).symm⟩

/-- R34 for the other instructions: the extent decides only whether the current cell has storage. -/
theorem Effect.setExtent {i : Instr} (h : Effect s i t) (hright : i ≠ .right) (hleft : i ≠ .left)
    (hcell' : ({ s with lo := lo, hi := hi } : State).hasCell s.dp = true) :
    Effect { s with lo := lo, hi := hi } i { t with lo := lo, hi := hi } := by
  cases h with
  | right | rightFull => exact absurd rfl hright
  | left | leftFull => exact absurd rfl hleft
  | inc => exact .inc hcell'
  | dec => exact .dec hcell'
  | out => exact .out hcell'
  | inpWait hwait => exact .inpWait hwait
  | inpTake a rest ha => exact .inpTake a rest ha hcell'
  | jzTaken k _ hzero hk => exact .jzTaken k hcell' hzero hk
  | jzFall _ hne => exact .jzFall hcell' hne
  | jnzTaken k _ hne hk => exact .jnzTaken k hcell' hne hk
  | jnzFall _ hzero => exact .jnzFall hcell' hzero

end Extent

/-- Settles O40: the moves write what their target says, and the other instructions do not read the extent. -/
theorem resultsDoNotDependOnExtent : Obligations.ResultsDoNotDependOnExtent := by
  intro i s t lo hi hcap hs hs' hexec
  by_cases hright : i = .right
  · subst hright
    exact movePointer_sameResult hcap hs hs' hexec
  by_cases hleft : i = .left
  · subst hleft
    exact movePointer_sameResult hcap hs hs' hexec
  · exact ⟨_, ((exec_effect hexec).setExtent hright hleft hs'.hasCell).exec_eq, rfl, rfl, rfl, rfl, rfl, rfl,
      fun _ => rfl⟩

end Sys2Proof.Machine

/-! The arithmetic unit (R93, R94), the stops of an instruction (R45, assumption 8), where an instruction leaves `IP`
(R76, R115, R118), and the two I/O channels (R107 to R111). -/

namespace Sys2Proof.Machine

variable {s t : State}

/-! ### The arithmetic unit and the zero detector -/

/-- Settles O28: the last form follows from the second, as 255 is -1 modulo 256. -/
theorem arithmeticUnitWrapsModulo256 : Obligations.ArithmeticUnitWrapsModulo256 := by
  refine fun a => ⟨toNat_alu_inc a, toNat_alu_dec a, ?_⟩
  rw [toNat_alu_dec]
  omega

/-- Settles O29: a byte is 0 exactly when its value is. -/
theorem zeroDetectorSeesOnlyZero : Obligations.ZeroDetectorSeesOnlyZero := by
  refine fun a => ⟨fun h => zeroDetect_of_zero (BitVec.eq_of_toNat_eq h), fun h => zeroDetect_of_ne_zero ?_⟩
  rintro rfl
  exact absurd h (by decide)

/-! ### Stops -/

theorem storeCell_of_not_hasCell (h : s.hasCell s.dp = false) (v : Byte) :
    storeCell s v = .fault .cellOutsideExtent := by
  simp [storeCell, h]

/-- Settles O32: all but `,` read the cell first, and an answered `,` stores to it. -/
theorem cellOutsideExtentFaults : Obligations.CellOutsideExtentFaults := by
  intro i s hcell hi
  rcases hi with rfl | rfl | rfl | rfl | rfl | ⟨rfl, hanswered⟩
  iterate 5 exact withCell_of_not_hasCell hcell _
  obtain ⟨a, rest, ha⟩ := List.exists_cons_of_ne_nil hanswered
  have htaken : (s.inTake a rest).hasCell (s.inTake a rest).dp = false := hcell
  exact (execIn_of_answer ha).trans (storeCell_of_not_hasCell htaken _)

theorem jump_absent (h : s.jread s.ip = none) : jump s true = .fault .absentJumpEntry := by
  simp [jump, State.jumpMux, h]

/-- Settles O48: a taken bracket is the taken jump. -/
theorem absentJumpEntryFaults : Obligations.AbsentJumpEntryFaults := fun _ hcell habsent =>
  ⟨fun hzero => (execJz_of_zero hcell hzero).trans (jump_absent habsent),
    fun hne => (execJnz_of_ne_zero hcell hne).trans (jump_absent habsent)⟩

/-! ### Where an instruction leaves `IP` -/

/-- The four ways an instruction can end: it retires at the next instruction, a taken bracket retires one past its
entry, a `,` waits, or a move overflows. -/
inductive Flow (s : State) (i : Instr) (t : State) : Prop
  | advance : s.retiredAt t (s.ip + 1) → t.faultReason = s.faultReason → Flow s i t
  | jump (k : Nat) : i = .jz ∨ i = .jnz → s.jread s.ip = some k → s.retiredAt t (k + 1) →
      t.faultReason = s.faultReason → Flow s i t
  | wait : i = .inp → s.answers = [] → t = s → Flow s i t
  | overflow : i = .right ∨ i = .left → t = s.raise .tapeOverflow → Flow s i t

theorem Effect.flow {i : Instr} (h : Effect s i t) : Flow s i t := by
  cases h with
  | inc | dec | right | left | out | inpTake | jzFall | jnzFall => exact .advance (State.retiredAt_retire rfl rfl) rfl
  | jzTaken k _ _ hk => exact .jump k (.inl rfl) hk (State.retiredAt_retire rfl rfl) rfl
  | jnzTaken k _ _ hk => exact .jump k (.inr rfl) hk (State.retiredAt_retire rfl rfl) rfl
  | inpWait hwait => exact .wait rfl hwait rfl
  | rightFull => exact .overflow (.inl rfl) rfl
  | leftFull => exact .overflow (.inr rfl) rfl

/-- Settles O25, by the ways an instruction can end. -/
theorem controlFlowOnlyThroughBrackets : Obligations.ControlFlowOnlyThroughBrackets := by
  intro i s t hexec
  cases (exec_effect hexec).flow with
  | advance hretired _ => exact .inl hretired.1
  | jump k hi hk hretired _ => exact .inr (.inl ⟨hi, k, hk, hretired.1⟩)
  | wait hi hwait ht => exact .inr (.inr (.inl ⟨hi, hwait, ht⟩))
  | overflow hi ht => exact .inr (.inr (.inr ⟨hi, ht ▸ ⟨rfl, rfl⟩⟩))

/-- Retiring a running core at its own `IP`, short of `N`, is no change. -/
theorem State.retire_self (hne : s.ip ≠ s.n) : s.retire s.ip = s := by
  simp [State.retire, hne]

/-- R115: the `]` of an empty loop on a non-zero cell jumps to itself. -/
theorem step_of_emptyLoop {o : Nat} (hrun : s.stepping) (hw : s.iread s.ip = some 0x5D#8)
    (hentry : s.jread s.ip = some o) (hloop : o + 1 = s.ip) (hcell : s.hasCell s.dp = true) (hne : s.cell ≠ 0#8) :
    step s = .next s := by
  have hlt : s.ip < s.n := (State.iread_eq_some.1 hw).1
  calc step s
    _ = exec .jnz s := step_of_decoded hrun hw (decode_encode .jnz)
    _ = jump s true := execJnz_of_ne_zero hcell hne
    _ = .next (s.retire (o + 1)) := jump_taken hentry
    _ = .next s := by rw [hloop, State.retire_self hlt.ne]

/-- A core whose step answers the same state stays in it. -/
theorem run_of_step_eq_self (h : step s = .next s) (k : Nat) : Sys2Proof.core.run k s = .next s := by
  induction k with
  | zero => rfl
  | succ k ih => exact (run_succ Sys2Proof.core k s s h).trans ih

/-- Settles O49: one such step answers the same state. -/
theorem emptyLoopOnNonzeroNeverEnds : Obligations.EmptyLoopOnNonzeroNeverEnds :=
  fun _ _ k hrun hw hentry hloop hcell hne => run_of_step_eq_self (step_of_emptyLoop hrun hw hentry hloop hcell hne) k

/-! ### The channels -/

/-- An answered `,` on a cell with storage, with its whole next state. -/
theorem execIn_of_answer_hasCell {a : Answer} {rest : List Answer} (hanswers : s.answers = a :: rest)
    (hcell : s.hasCell s.dp = true) :
    exec .inp s = .next (((s.inTake a rest).memWrite s.dp a.value).retire (s.ip + 1)) :=
  (Effect.inpTake a rest hanswers hcell).exec_eq

/-- R108: a running core at a `,` raises its request. -/
theorem State.inReq_of_decoded {w : Word} (h : s.stepping) (hw : s.iread s.ip = some w)
    (hop : decode w = .op .inp) : s.inReq = true := by
  obtain ⟨hphase, hrst⟩ := h
  simp [State.inReq, hphase, hrst, hw, hop]

/-- Settles O43: without an answer `,` is the waiting effect; the host's answer changes nothing the fetch reads, so the
step after it is the answered `,`. -/
theorem inputBlocksUntilAnswered : Obligations.InputBlocksUntilAnswered := by
  intro s w hrun hw hop hwait
  have hreq : s.inReq = true := State.inReq_of_decoded hrun hw hop
  refine ⟨(step_of_decoded hrun hw hop).trans (Effect.inpWait hwait).exec_eq, hreq, ?_, fun a hcell => ?_⟩
  · simp [State.blocked, hreq, hwait]
  · have hanswers : (s.hostMove (.answer a)).answers = [a] := by simp [State.hostMove, hwait]
    have hrun' : (s.hostMove (.answer a)).stepping := hrun
    have hnext := (step_of_decoded hrun' hw hop).trans (execIn_of_answer_hasCell hanswers hcell)
    exact ⟨_, hnext, rfl, rfl, rfl⟩

/-- Settles O44: both answers have the value 0, so the two next states differ in the record alone. -/
theorem endOfInputActsAsByteZero : Obligations.EndOfInputActsAsByteZero := by
  intro s t rest hexec
  obtain ⟨hcell, rfl⟩ := storeCell_next hexec
  have hzero := execIn_of_answer_hasCell (s := { s with answers := .byte 0#8 :: rest }) rfl hcell
  refine ⟨Tape.read_write_same _ _ _, rfl, fun hrun => ?_, hzero⟩
  rw [State.retire_phase]
  split
  · exact .inr rfl
  · exact .inl hrun

/-- Settles O45: the effects of `.` and of an answered `,` write the record; no other effect and no other step without a
reset does. -/
theorem transactionsRecordedInStepOrder : Obligations.TransactionsRecordedInStepOrder := by
  refine ⟨fun i s t hexec => ?_, fun s t hstep hrst => ?_⟩
  · cases exec_effect hexec with
    | inc | dec | right | rightFull | left | leftFull | jzTaken | jzFall | jnzTaken | jnzFall =>
      exact ⟨nofun, nofun, fun _ _ => ⟨rfl, rfl⟩⟩
    | out =>
      refine ⟨fun _ => ⟨rfl, ?_, ?_, rfl⟩, nofun, fun h => absurd rfl h⟩
      · simp [State.output, Event.outValue]
      · simp [State.answersTaken, Event.answer]
    | inpWait hwait =>
      refine ⟨nofun, fun _ => ⟨fun a rest ha => ?_, fun _ => ⟨rfl, rfl⟩⟩, fun _ h => absurd rfl h⟩
      simp [hwait] at ha
    | inpTake a rest hanswers =>
      refine ⟨nofun, fun _ => ⟨fun a' rest' ha => ?_, fun hnil => ?_⟩, fun _ h => absurd rfl h⟩
      · obtain ⟨rfl, rfl⟩ := List.cons.inj (hanswers.symm.trans ha)
        refine ⟨rfl, ?_, ?_, rfl⟩
        · simp [State.answersTaken, Event.answer]
        · simp [State.output, Event.outValue]
      · simp [hanswers] at hnil
  · cases step_kind hstep with
    | reset hraised _ => simp [hrst] at hraised
    | load src _ _ _ ht => exact .inr (ht ▸ (s.load_keeps_io_cap_rst src).1)
    | nothing _ _ ht => exact .inr (ht ▸ ⟨rfl, rfl⟩)
    | illegal w _ _ _ ht => exact .inr (ht ▸ ⟨rfl, rfl⟩)
    | instr w i hrun hw hop heffect => exact .inl ⟨i, ⟨hrun, by simp [hw, hop]⟩, heffect.exec_eq⟩

end Sys2Proof.Machine

/-! The invariant (R24, R30, R38, R46, R74): it holds at reset, and every step and every move of the host keep it; what
a core that has it can do (R67, R74, R122, R127). -/

namespace Sys2Proof.Machine

variable {s t : State}

/-! ### The tape's part -/

/-- What the tape's invariant needs of a change: the canonical form, an extent that has not shrunk, and grown only where
there was room, the pointer inside it, and no other cell changed than the one at the pointer. -/
theorem State.TapeInv.of_sameCellsBut (h : s.TapeInv) (hcap : t.cap = s.cap) (hwf : t.tape.wf = true)
    (hle : t.lo ≤ s.lo ∧ s.hi ≤ t.hi) (hpointer : t.lo ≤ t.dp ∧ t.dp ≤ t.hi) (hcells : s.sameCellsBut t t.dp)
    (hroom : t.extent ≤ s.extent ∨ (tapeFull s.cap.tape s.lo s.hi = false ∧ t.extent = s.extent + 1)) : t.TapeInv where
  canonical := hwf
  home := by
    obtain ⟨hlo, hhi⟩ := h.home
    omega
  pointer := hpointer
  storage i hi := by
    by_cases hdp : i = t.dp
    · exact hdp ▸ hpointer
    · obtain ⟨hlo, hhi⟩ := h.storage i (hcells i hdp ▸ hi)
      omega
  capacity c hc := by
    rw [hcap] at hc
    rcases hroom with hsame | ⟨hfull, hgrown⟩
    · exact hsame.trans (h.capacity c hc)
    · have hfits := tapeFull_eq_false.1 hfull c hc
      have hold : s.extent = s.hi - s.lo + 1 := rfl
      omega

/-- Every change an instruction can make to the tape keeps the tape's invariant. -/
theorem State.TapeInv.of_tapeChange (h : s.TapeInv) (hchange : TapeChange s t) (hcap : t.cap = s.cap) : t.TapeInv := by
  have hpointer := hchange.pointer_mem_extent h.pointer
  refine h.of_sameCellsBut hcap ?wf hchange.extent_le hpointer ?cells ?room
  case wf =>
    cases hchange with
    | untouched _ htape | movedRight _ _ _ _ htape | movedLeft _ _ _ _ htape => exact htape ▸ h.canonical
    | stored v _ htape | grewRight _ _ _ _ _ htape | grewLeft _ _ _ _ _ htape =>
      exact htape ▸ Tape.wf_write h.canonical _ _
  case cells =>
    intro j hj
    cases hchange with
    | untouched _ htape | movedRight _ _ _ _ htape | movedLeft _ _ _ _ htape => rw [htape]
    | stored v hsame htape => rw [htape, Tape.read_write_of_ne _ v (hsame.1 ▸ hj)]
    | grewRight _ _ hdp _ _ htape | grewLeft _ _ hdp _ _ htape => rw [htape, Tape.read_write_of_ne _ _ (hdp ▸ hj)]
  case room =>
    have hin := h.pointer
    simp only [State.extent]
    cases hchange with
    | untouched hsame _ | stored _ hsame _ =>
      obtain ⟨-, hlo, hhi⟩ := hsame
      omega
    | movedRight _ _ hlo hhi | movedLeft _ _ hlo hhi => omega
    | grewRight _ hfull _ hlo hhi | grewLeft _ hfull _ hlo hhi => exact .inr ⟨hfull, by omega⟩

/-! ### The program's part -/

/-- R46: an entry of a bracket pairing is an index of the stream. -/
theorem Pairing.entry_lt {ws : List Word} {jt : List (Option Nat)} (h : Pairing ws jt) {i k : Nat}
    (hentry : entry jt i = some k) : k < ws.length := by
  have hi : i < ws.length := by
    by_contra hle
    have hjt : jt[i]? = none := List.getElem?_eq_none (h.length_eq ▸ Nat.le_of_not_lt hle)
    simp [entry, hjt] at hentry
  have hw : ws[i]? = some ws[i] := List.getElem?_eq_getElem hi
  by_cases hopen : ws[i] = 0x5B#8
  · obtain ⟨c, hpair⟩ := h.opened i (hopen ▸ hw)
    obtain rfl : c = k := Option.some.inj (hpair.forth.symm.trans hentry)
    exact (List.getElem?_eq_some_iff.1 hpair.closes).1
  · by_cases hclose : ws[i] = 0x5D#8
    · obtain ⟨o, hpair⟩ := h.closed i (hclose ▸ hw)
      obtain rfl : o = k := Option.some.inj (hpair.back.symm.trans hentry)
      exact (List.getElem?_eq_some_iff.1 hpair.opens).1
    · simp [h.absent i _ hw hopen hclose] at hentry

/-- A change that leaves the program keeps its invariant, if `IP` stays within it. -/
theorem State.ProgramInv.of_sameProgram (h : s.ProgramInv) (hsame : s.sameProgram t) (hcap : t.cap = s.cap)
    (hip : t.ip ≤ s.n) : t.ProgramInv := by
  obtain ⟨hirom, hn, hjt⟩ := hsame
  exact ⟨by rw [hn, hirom, h.length_eq], hirom ▸ h.legal, hirom ▸ hjt ▸ h.pairing, hcap ▸ hn ▸ h.capacity, hn ▸ hip⟩

/-- R45: a jump-table entry read by a bracket lies in the program. -/
theorem State.ProgramInv.jread_lt (h : s.ProgramInv) {i k : Nat} (hk : s.jread i = some k) : k < s.n :=
  h.length_eq ▸ h.pairing.entry_lt hk

/-! ### The status' part -/

/-- A fault state has the status' invariant, whatever state raised it. -/
theorem State.statusInv_raise (s : State) {r : FaultReason} (hr : r ≠ .none) : (s.raise r).StatusInv where
  named := by simp
  reason := by simp [hr]
  running := nofun
  halted := nofun
  unloaded := by simp

/-- R74: an instruction of a running core that retires within the program keeps the status' invariant. -/
theorem State.StatusInv.of_retiredAt (h : s.StatusInv) (hphase : s.phase = .run) {k : Nat} (hk : k ≤ s.n)
    (hretired : s.retiredAt t k) (hn : t.n = s.n) (hreason : t.faultReason = s.faultReason) : t.StatusInv := by
  obtain ⟨hip, hend, hgo⟩ := hretired
  have hnone : t.faultReason = .none := hreason.trans (h.reason.2 (by simp [hphase]))
  by_cases hkn : k = s.n
  · have ht : t.phase = .halted := hend hkn
    exact ⟨by simp [ht], by simp [ht, hnone], by simp [ht], fun _ => by omega, by simp [ht]⟩
  · have ht : t.phase = .run := (hgo hkn).trans hphase
    exact ⟨by simp [ht], by simp [ht, hnone], fun _ => by omega, by simp [ht], by simp [ht]⟩

/-! ### The whole -/

/-- Raising a fault keeps the invariant. -/
theorem State.Inv.raise (h : s.Inv) {r : FaultReason} (hr : r ≠ .none) : (s.raise r).Inv where
  ontape := h.ontape.of_tapeChange (.untouched ⟨rfl, rfl, rfl⟩ rfl) rfl
  program := h.program.of_sameProgram (s.sameProgram_raise r) rfl h.program.ip_le
  status := s.statusInv_raise hr

/-- The host's side of the ports is no part of the invariant. -/
theorem State.Inv.setHostSide (h : s.Inv) (rst : Bool) (port : Option (List Byte)) (answers : List Answer) :
    ({ s with rst := rst, loadPort := port, answers := answers } : State).Inv where
  ontape := h.ontape.of_tapeChange (.untouched ⟨rfl, rfl, rfl⟩ rfl) rfl
  program := h.program.of_sameProgram s.sameProgram_refl rfl h.program.ip_le
  status := ⟨h.status.named, h.status.reason, h.status.running, h.status.halted, h.status.unloaded⟩

/-- Nothing is loaded: what the status' invariant says of `IDLE` and `MALFORMED` (R37, R124). -/
def State.Unloaded (s : State) : Prop :=
  s.irom = [] ∧ s.n = 0 ∧ s.jt = [] ∧ s.ip = 0 ∧ s.dp = 0 ∧ s.lo = 0 ∧ s.hi = 0 ∧ s.tape = Tape.blank ∧ s.events = []

/-- A tape of one blank cell has the tape's invariant, under any capacity. -/
theorem State.tapeInv_of_blank (hdp : s.dp = 0) (hlo : s.lo = 0) (hhi : s.hi = 0) (htape : s.tape = Tape.blank) :
    s.TapeInv where
  canonical := htape ▸ Tape.wf_blank
  home := by omega
  pointer := by omega
  storage i hi := absurd (htape ▸ Tape.read_blank i) hi
  capacity c _ := by
    simp only [State.extent]
    omega

theorem Pairing.nil : Pairing [] [] := ⟨rfl, nofun, nofun, nofun⟩

/-- With nothing loaded, in `IDLE` or `MALFORMED` and with no reason of a fault, the invariant holds. -/
theorem State.Unloaded.inv (h : s.Unloaded) (hphase : s.phase = .idle ∨ s.phase = .malformed)
    (hreason : s.faultReason = .none) : s.Inv := by
  have hunloaded := h
  obtain ⟨hirom, hn, hjt, hip, hdp, hlo, hhi, htape, -⟩ := h
  refine ⟨State.tapeInv_of_blank hdp hlo hhi htape, ?_, ?_⟩
  · exact ⟨by simp [hn, hirom], by simp [hirom], by simpa [hirom, hjt] using Pairing.nil, by simp [hn], by omega⟩
  · rcases hphase with hp | hp <;>
      exact ⟨by simp [hp], by simp [hp, hreason], by simp [hp], by simp [hp], fun _ => hunloaded⟩

theorem State.unloaded_resetCore (s : State) : s.resetCore.Unloaded := ⟨rfl, rfl, rfl, rfl, rfl, rfl, rfl, rfl, rfl⟩

/-- Settles O50: after reset nothing is loaded. -/
theorem invariantHoldsAtReset : Obligations.InvariantHoldsAtReset := fun _ =>
  State.Unloaded.inv ⟨rfl, rfl, rfl, rfl, rfl, rfl, rfl, rfl, rfl⟩ (.inl rfl) rfl

/-! ### What keeps it -/

/-- R46, R66, R84: the program that a load stores has the invariant. -/
theorem State.inv_loaded {src : List Byte} {jt : List (Option Nat)}
    (hfits : overProgCap s.cap.prog (sanitize src).length = false) (hbuild : buildJumpTable (sanitize src) = some jt) :
    (s.loaded (sanitize src) jt).Inv where
  ontape := State.tapeInv_of_blank rfl rfl rfl rfl
  program := by
    refine ⟨rfl, fun w hw => ?_, (buildJumpTable_loopInv hbuild).pairing, overProgCap_eq_false.1 hfits, Nat.zero_le _⟩
    obtain ⟨i, rfl⟩ := exists_encode_of_mem_sanitize hw
    simp
  status := by
    by_cases hempty : (sanitize src).length = 0
    · exact ⟨by simp [hempty], by simp [hempty], by simp [hempty], fun _ => hempty.symm, by simp [hempty]⟩
    · exact ⟨by simp [hempty], by simp [hempty], fun _ => Nat.pos_of_ne_zero hempty, by simp [hempty], by simp [hempty]⟩

/-- R89: a load from `IDLE` keeps the invariant, whatever its outcome. -/
theorem State.Inv.load (h : s.Inv) (hidle : s.phase = .idle) (src : List Byte) : (s.load src).Inv := by
  rcases s.load_cases src with ⟨-, hload⟩ | ⟨-, -, hload⟩ | ⟨jt, hfits, hbuild, hload⟩ <;> rw [hload]
  · exact h.raise (by decide)
  · have hunloaded : s.malform.Unloaded := h.status.unloaded (.inl hidle)
    exact hunloaded.inv (.inr rfl) (h.status.reason.2 (by simp [hidle]))
  · exact State.inv_loaded hfits hbuild

/-- R45, R74: an instruction of a running core that retires does so within the program. -/
theorem State.Inv.of_effect (h : s.Inv) (hphase : s.phase = .run) {i : Instr} (heffect : Effect s i t) : t.Inv := by
  have hlt : s.ip < s.n := h.status.running hphase
  obtain ⟨hcap, -, -⟩ := heffect.keeps_cap_rst_loadPort
  obtain ⟨-, hn, -⟩ := heffect.sameProgram
  have hretires {k : Nat} (hk : k ≤ s.n) (hretired : s.retiredAt t k) (hreason : t.faultReason = s.faultReason) :
      t.Inv :=
    ⟨h.ontape.of_tapeChange heffect.tapeChange hcap,
      h.program.of_sameProgram heffect.sameProgram hcap (hretired.1 ▸ hk),
      h.status.of_retiredAt hphase hk hretired hn hreason⟩
  cases heffect.flow with
  | advance hretired hreason => exact hretires hlt hretired hreason
  | jump k _ hk hretired hreason => exact hretires (h.program.jread_lt hk) hretired hreason
  | wait _ _ ht => exact ht ▸ h
  | overflow _ ht => exact ht ▸ h.raise (by decide)

/-- Settles O51, by the kinds of step. -/
theorem everyStepKeepsInvariant : Obligations.EveryStepKeepsInvariant := by
  intro s t h hstep
  cases step_kind hstep with
  | reset _ ht => exact ht ▸ s.unloaded_resetCore.inv (.inl rfl) rfl
  | load src _ hidle _ ht => exact ht ▸ (h.load hidle src).setHostSide _ none _
  | nothing _ _ ht => exact ht ▸ h
  | illegal w _ _ _ ht => exact ht ▸ h.raise (by decide)
  | instr w i hrun _ _ heffect => exact h.of_effect hrun.1 heffect

/-- Settles O52: a move of the host writes its side of the ports alone. -/
theorem hostMovesKeepInvariant : Obligations.HostMovesKeepInvariant := by
  intro s m h
  refine ⟨?_, ?_⟩
  · cases m with
    | raiseRst => exact h.setHostSide true _ _
    | present src => exact h.setHostSide _ (some src) _
    | answer a => exact h.setHostSide _ _ (s.answers ++ [a])
  · cases m <;> exact ⟨⟨rfl, rfl, rfl⟩, ⟨rfl, rfl, rfl⟩, rfl, rfl, rfl⟩

theorem Reachable.inv (h : Reachable s) : s.Inv :=
  reachable_induction invariantHoldsAtReset everyStepKeepsInvariant (fun s m hs => (hostMovesKeepInvariant s m hs).1) h

/-! ### What a core that has it can do -/

/-- R43, R67: the fetch of a running core finds an instruction. -/
theorem State.Inv.exists_nextIs (h : s.Inv) (hrun : s.stepping) :
    ∃ i, s.iread s.ip = some (encode i) ∧ decode (encode i) = .op i := by
  have hlt : s.ip < s.irom.length := h.program.length_eq ▸ h.status.running hrun.1
  have hw : s.iread s.ip = some s.irom[s.ip] :=
    State.iread_eq_some.2 ⟨h.status.running hrun.1, List.getElem?_eq_getElem hlt⟩
  cases hop : decode s.irom[s.ip] with
  | op i => exact ⟨i, eq_encode_of_decode hop ▸ hw, decode_encode i⟩
  | illegal => exact absurd hop (h.program.legal _ (List.getElem_mem hlt))

/-- R45: a bracket at `IP` has an entry. -/
theorem State.ProgramInv.exists_jread (h : s.ProgramInv) {i : Instr} (hw : s.iread s.ip = some (encode i))
    (hi : i = .jz ∨ i = .jnz) : ∃ k, s.jread s.ip = some k := by
  have hword : s.irom[s.ip]? = some (encode i) := (State.iread_eq_some.1 hw).2
  rcases hi with rfl | rfl
  · obtain ⟨c, hpair⟩ := h.pairing.opened s.ip hword
    exact ⟨c, hpair.forth⟩
  · obtain ⟨o, hpair⟩ := h.pairing.closed s.ip hword
    exact ⟨o, hpair.back⟩

/-- An instruction whose cell has storage, and whose entry, if it is a bracket, is there, answers a next state. -/
theorem exists_effect {i : Instr} (hcell : s.hasCell s.dp = true)
    (hentry : i = .jz ∨ i = .jnz → ∃ k, s.jread s.ip = some k) : ∃ t, Effect s i t := by
  cases i with
  | inc => exact ⟨_, .inc hcell⟩
  | dec => exact ⟨_, .dec hcell⟩
  | out => exact ⟨_, .out hcell⟩
  | right =>
    rcases movePointer_cases .right s with ⟨hover, -⟩ | ⟨hno, -⟩
    · exact ⟨_, .rightFull hover⟩
    · exact ⟨_, .right hno⟩
  | left =>
    rcases movePointer_cases .left s with ⟨hover, -⟩ | ⟨hno, -⟩
    · exact ⟨_, .leftFull hover⟩
    · exact ⟨_, .left hno⟩
  | inp =>
    cases hanswers : s.answers with
    | nil => exact ⟨_, .inpWait hanswers⟩
    | cons a rest => exact ⟨_, .inpTake a rest hanswers hcell⟩
  | jz =>
    obtain ⟨k, hk⟩ := hentry (.inl rfl)
    by_cases hzero : s.cell = 0#8
    · exact ⟨_, .jzTaken k hcell hzero hk⟩
    · exact ⟨_, .jzFall hcell hzero⟩
  | jnz =>
    obtain ⟨k, hk⟩ := hentry (.inr rfl)
    by_cases hzero : s.cell = 0#8
    · exact ⟨_, .jnzFall hcell hzero⟩
    · exact ⟨_, .jnzTaken k hcell hzero hk⟩

/-- R102, R122: an instruction of a running core goes on, ends the run, or overflows a finite `TAPE_CAP`. -/
theorem Effect.phase_of_run {i : Instr} (h : Effect s i t) (hphase : s.phase = .run) :
    t.phase = .run ∨ t.phase = .halted
      ∨ (t.phase = .fault ∧ t.faultReason = .tapeOverflow ∧ s.cap.tape ≠ none) := by
  have hs : s.phase ≠ .fault := by simp [hphase]
  by_cases hsame : t.phase = s.phase
  · exact .inl (hsame.trans hphase)
  · rcases h.phase_of_change hsame with hhalt | hfault
    · exact .inr (.inl hhalt)
    · obtain ⟨⟨c, hc, -⟩, -⟩ := h.growsBeyondCap_of_fault hs hfault
      exact .inr (.inr ⟨hfault, by rw [h.eq_raise_of_fault hs hfault]; rfl, by simp [hc]⟩)

/-- Settles O53: the invariant gives the fetch its word, the instruction its cell and a bracket its entry. -/
theorem runningCoreAlwaysProceeds : Obligations.RunningCoreAlwaysProceeds := by
  intro s h hrun
  obtain ⟨i, hw, hop⟩ := h.exists_nextIs hrun
  obtain ⟨t, heffect⟩ := exists_effect h.ontape.hasCell (h.program.exists_jread hw)
  exact ⟨t, (step_of_decoded hrun hw hop).trans heffect.exec_eq, heffect.phase_of_run hrun.1⟩

/-- Settles O23: the next state has the invariant, which ties `RUN` and `HALTED` to `IP`, and is in one of the two. -/
theorem haltExactlyAtProgramEnd : Obligations.HaltExactlyAtProgramEnd := by
  intro s t h hrun hstep hne
  have ht := everyStepKeepsInvariant s t h hstep
  obtain ⟨t', hstep', hphase⟩ := runningCoreAlwaysProceeds s h hrun
  cases hstep.symm.trans hstep'
  rcases hphase with hgo | hhalt | ⟨hfault, -, -⟩
  · have hlt : t.ip < t.n := ht.status.running hgo
    simp [hgo, hlt, hlt.ne]
  · have hend : t.ip = t.n := ht.status.halted hhalt
    simp [hhalt, hend]
  · exact absurd hfault hne

/-- Settles O54: a reachable state has the invariant, so its phase has a name, and only `FAULT` has no next state. -/
theorem reachableStepsStopOnlyInFault : Obligations.ReachableStepsStopOnlyInFault := by
  intro s hreach
  have h := hreach.inv
  obtain ⟨h5, h6, h7⟩ := h.status.named
  cases hrst : s.rst with
  | true => exact .inl ⟨_, step_eq_resetCore_of_rst hrst⟩
  | false =>
    cases hphase : s.phase with
    | idle =>
      cases hport : s.loadPort with
      | none => exact .inl ⟨_, step_of_no_source hphase hrst hport⟩
      | some src => exact .inl ⟨_, step_of_source hphase hrst hport⟩
    | run =>
      obtain ⟨t, hstep, -⟩ := runningCoreAlwaysProceeds s h ⟨hphase, hrst⟩
      exact .inl ⟨t, hstep⟩
    | halted => exact .inl ⟨_, step_of_ended (.inl hphase) hrst⟩
    | malformed => exact .inl ⟨_, step_of_ended (.inr hphase) hrst⟩
    | fault => exact .inr (step_of_fault hphase hrst)
    | reserved5 => exact absurd hphase h5
    | reserved6 => exact absurd hphase h6
    | reserved7 => exact absurd hphase h7

end Sys2Proof.Machine

/-! What the host sees: the `status` port (R35), the result of a run (R141), and the state in which a given word is
fetched next (assumption 11). -/

namespace Sys2Proof.Machine

variable {s : State}

/-- Settles O56: the port shows the code of each register. -/
theorem statusPortShowsCodes : Obligations.StatusPortShowsCodes := fun _ =>
  ⟨congrArg Phase.code, congrArg Phase.code, congrArg Phase.code, congrArg Phase.code, congrArg Phase.code,
    congrArg FaultReason.code, congrArg FaultReason.code, congrArg FaultReason.code, congrArg FaultReason.code⟩

/-! ### The result of a run -/

theorem State.result?_of_halted (h : s.phase = .halted) : s.result? = some
    { exitStatus := 0, output := s.output, answersTaken := s.answersTaken
      final := some { ip := s.ip, dp := s.dp, lo := s.lo, hi := s.hi, cells := s.cells } } := by
  simp [State.result?, h]

theorem State.result?_of_malformed (h : s.phase = .malformed) : s.result? = some
    { exitStatus := Config.exitMalformed, output := s.output, answersTaken := s.answersTaken, final := none } := by
  simp [State.result?, h]

theorem State.result?_ne_none_iff : s.result? ≠ none ↔ s.phase = .halted ∨ s.phase = .malformed := by
  cases h : s.phase <;> simp [State.result?, h]

theorem State.length_cells (h : 0 ≤ s.extent) : (s.cells.length : Int) = s.extent := by
  rw [State.cells, List.length_map, List.length_range, Int.toNat_of_nonneg h]

theorem State.getElem?_cells {k : Nat} (h : (k : Int) < s.extent) : s.cells[k]? = some (s.tape.read (s.lo + k)) := by
  have hk : k < s.extent.toNat := by omega
  rw [State.cells, List.getElem?_map, List.getElem?_range hk, Option.map_some]

/-- Settles O57: a halted run has `IP = N` and an extent of at least one cell; a malformed one has no record. -/
theorem resultOnlyOfEndedRun : Obligations.ResultOnlyOfEndedRun := by
  refine fun s h => ⟨State.result?_ne_none_iff, fun hhalt => ?_, fun hmal => ?_⟩
  · have hextent : 0 ≤ s.extent := by
      obtain ⟨hlo, hhi⟩ := h.ontape.home
      simp only [State.extent]
      omega
    exact ⟨_, _, State.result?_of_halted hhalt, rfl, rfl, rfl, rfl, h.status.halted hhalt, rfl, rfl, rfl,
      State.length_cells hextent, fun _ => State.getElem?_cells⟩
  · obtain ⟨-, -, -, -, -, -, -, -, hevents⟩ := h.status.unloaded (.inr hmal)
    exact ⟨_, State.result?_of_malformed hmal, exitMalformed_ne_zero, by simp [State.output, hevents],
      by simp [State.answersTaken, hevents]⟩

/-! ### The word fetched next -/

theorem length_take_append_replicate (irom : List Word) (k : Nat) :
    (irom.take k ++ List.replicate (k - irom.length) 0#8).length = k := by
  rw [List.length_append, List.length_take, List.length_replicate]
  omega

theorem getElem?_placeAt_same (irom : List Word) (k : Nat) (w : Word) : (placeAt irom k w)[k]? = some w := by
  rw [placeAt, List.getElem?_append_right (length_take_append_replicate irom k).le, length_take_append_replicate,
    Nat.sub_self, List.getElem?_cons_zero]

/-- Placing a word leaves the words before it as they are. -/
theorem getElem?_placeAt_of_lt {irom : List Word} {j k : Nat} (hjk : j < k) (hj : j < irom.length) (w : Word) :
    (placeAt irom k w)[j]? = irom[j]? := by
  have htake : j < (irom.take k).length := by
    rw [List.length_take]
    omega
  rw [placeAt, List.append_assoc, List.getElem?_append_left htake, List.getElem?_take_of_lt hjk]

/-- The word placed is the one at `IP`, with a partner after it or without. -/
theorem State.iread_placeNext (s : State) (w : Word) : (s.placeNext w).iread s.ip = some w := by
  have hsame : (placeAt s.irom s.ip w)[s.ip]? = some w := getElem?_placeAt_same s.irom s.ip w
  refine State.iread_eq_some.2 ?_
  cases hpartner : s.needsPartner w with
  | false =>
    simp only [State.placeNext, hpartner, Bool.false_eq_true, if_false]
    exact ⟨by omega, hsame⟩
  | true =>
    have hlt : s.ip < (placeAt s.irom s.ip w).length := (List.getElem?_eq_some_iff.1 hsame).1
    simp only [State.placeNext, hpartner, if_true]
    exact ⟨by omega, (getElem?_placeAt_of_lt (Nat.lt_succ_self s.ip) hlt _).trans hsame⟩

/-- An 8-bit row of the opcode table is one word of the decoder. -/
theorem decode_of_decodeTableWord {w : Nat} {i : Instr} (h : decodeTableWord 8 w = some i) :
    decode (BitVec.ofNat 8 w) = .op i := by
  rw [decodeTableWord, BitVec.setWidth_eq] at h
  cases hop : decode (BitVec.ofNat 8 w) with
  | op j =>
    rw [hop] at h
    exact congrArg Decoded.op (Option.some.inj h)
  | illegal =>
    rw [hop] at h
    cases h

/-- Settles O58: the state is running, with the word at `IP`, so its step is the decoded instruction. -/
theorem fetchWordIsFetchedNext : Obligations.FetchWordIsFetchedNext := by
  intro s w
  have hrun : (s.withFetchWord 8 w).stepping := ⟨rfl, rfl⟩
  have hword : (s.withFetchWord 8 w).iread (s.withFetchWord 8 w).ip = some (BitVec.ofNat 8 w) := by
    rw [State.withFetchWord, BitVec.setWidth_eq]
    exact s.iread_placeNext _
  exact ⟨hrun, hword, fun i hi => step_of_decoded hrun hword (decode_of_decodeTableWord hi)⟩

end Sys2Proof.Machine
